-- ==== Sys2Proof/Word.lean ====
section
/-! DEFINITION. The value types of the block (00_scope.md R9): bytes, byte sequences and the 32-bit checksum word. -/

namespace Sys2Proof

/-- A byte, an unsigned 8-bit value (R9). -/
abbrev Byte := BitVec 8

/-- A finite byte sequence, index 0 first on the wire (R9, R50). -/
abbrev Bytes := List Byte

/-- `UInt32` of R9: CRC values and masked checksums, arithmetic modulo `2^32`. -/
abbrev Word := BitVec 32

end Sys2Proof
end

