-- ==== Sys2Proof/Config.lean ====
section
/-! DEFINITION. The OPEN parameters of 00_scope.md R7: the external collaborators of R201, `pickError` and `RESIDUAL_CAP`; and the one value the rules leave open beside them.
The fixed parameters stand where a repair may mend them: `MAX_BLOCK` in Machine/Enc.lean, `MASK_ROT` and `MASK_OFFSET` in
Machine/Mask.lean, field widths and `ID_FRAME` in Decode.lean.  `VERIFY` is the register `dec.verify`. -/

namespace Sys2Proof

/-- The error kinds of 60_exceptions.md R190 (code 0, `NONE`, is no kind: an `err` register holds `none`). -/
inductive ErrorKind where
  /-- "first byte of stream is not the identifier type" (R143) -/
  | missingStreamIdentifier
  /-- "identifier frame present but payload mismatches the fixed magic" (R147) -/
  | invalidStreamIdentifier
  /-- "frame type in the unskippable reserved range encountered" (R153) -/
  | unskippableFrame
  /-- "recomputed mask disagrees with stored mask" (R157) -/
  | checksumMismatch
  /-- "non-empty residual at end-of-stream" (R162) -/
  | truncatedStream
  /-- the external compressor failed on a block (R118) -/
  | compressionFailure
  /-- the external decompressor reported a decode error (R156) -/
  | decompressionFailure
  /-- a data frame with `payload_length < 4` (R150, D8) -/
  | shortDataFrame
  deriving DecidableEq, Repr

/-- The two data-frame types, as the `type` of a batch tuple: `0x00` and `0x01` (R148, R149). -/
inductive DataKind where
  | compressed
  | uncompressed
  deriving DecidableEq, Repr

/-- A batch tuple `(type, checksum_mask, block)` (R36). -/
structure DataTuple where
  kind : DataKind
  checksumMask : Word
  block : Bytes
  deriving DecidableEq, Repr

/-- A failing tuple of a batch: its position, the tuple, its error (R158, R195 line 4). -/
structure FailedTuple where
  index : Nat
  tuple : DataTuple
  error : ErrorKind
  deriving DecidableEq, Repr

/-- What the platform binds before the rules hold (R7, R201, R223).  The machine is written for any collaborators;
`Config.platform` is the one the fixed names `exec` and `step` run with. -/
structure Collaborators where
  /-- `CRC32C(b)` (R102, D13) -/
  crc32c : Bytes → Word
  /-- the block compressor's result when it does not fail (R113) -/
  compressFn : Bytes → Bytes
  /-- whether a compressor call can fail at all (D12) -/
  compressMayFail : Bool
  /-- the draw of the n-th compressor call: `true` is a failure, if failure can occur (D12) -/
  compressDraw : Nat → Bool
  /-- `DECOMPRESS(b)`, `none` a decode error; a function of `b` alone (R156, D23) -/
  decompressFn : Bytes → Option Bytes
  /-- which of the failing tuples is reported; its answer is read modulo their number (R158, D10) -/
  pickError : Nat → List FailedTuple → Nat
  /-- `RESIDUAL_CAP`; `none` is the default, unbounded (R61, D14) -/
  residualCap : Option Nat

/-- OPEN `crc32c` (log 6). -/
opaque Config.crc32c : Bytes → Word
/-- OPEN `compressFn` (log 7). -/
opaque Config.compressFn : Bytes → Bytes
/-- OPEN `compressMayFail` (log 5). -/
opaque Config.compressMayFail : Bool
/-- The free value of each compressor call's failure draw (log 5). -/
opaque Config.compressDraw : Nat → Bool
/-- OPEN `decompressFn` (log 7). -/
opaque Config.decompressFn : Bytes → Option Bytes
/-- OPEN `pickError`, with the draw counter as a further argument (log 5). -/
opaque Config.pickError : Nat → List FailedTuple → Nat
/-- OPEN `RESIDUAL_CAP` (log 8). -/
opaque Config.residualCap : Option Nat

/-- The mask unit's status word as a function of that unit's one bit, `protocol_fault`: 10_state.md R46 gives each unit a status word and no layout for
this one, so its value is free (log 19). -/
opaque Config.maskStatusWord : Bool → BitVec 16

/-- The collaborators the platform has bound (R223 step 1): nothing is known of any of them. -/
def Config.platform : Collaborators where
  crc32c := Config.crc32c
  compressFn := Config.compressFn
  compressMayFail := Config.compressMayFail
  compressDraw := Config.compressDraw
  decompressFn := Config.decompressFn
  pickError := Config.pickError
  residualCap := Config.residualCap

end Sys2Proof
end

