-- ==== Sys2Proof/Syntax.lean ====
section
/-! DEFINITION. The instructions: one constructor per mnemonic of spec/opcode_table.json.  The table has several mask/match rows for the
two reserved ranges (`FRAME_UNSKIPPABLE`, `FRAME_SKIPPABLE`); each range is one constructor that keeps its type code, as the
source's "closed tagged variant" does (30_encoding.md R77). -/

namespace Sys2Proof

/-- The frames of the input stream, executed inside a `DEC_WRITE` (42_decoder.md R146), and the commands of the ports (30_encoding.md R84).
A frame carries its whole payload, a command its whole operand field. -/
inductive Instr where
  /-- `FRAME_STREAM_ID`, type `0xFF` (R147) -/
  | frameStreamId (payload : Bytes)
  /-- `FRAME_COMPRESSED`, type `0x00` (R148) -/
  | frameCompressed (payload : Bytes)
  /-- `FRAME_UNCOMPRESSED`, type `0x01` (R149) -/
  | frameUncompressed (payload : Bytes)
  /-- `FRAME_UNSKIPPABLE`, types `0x02..0x7F` (R153) -/
  | frameUnskippable (code : Byte) (payload : Bytes)
  /-- `FRAME_SKIPPABLE`, types `0x80..0xFD` (R152) -/
  | frameSkippable (code : Byte) (payload : Bytes)
  /-- `FRAME_PADDING`, type `0xFE` (R151) -/
  | framePadding (payload : Bytes)
  /-- `ENC_RESET`, command `0x10`; the operand must be empty (R220, R86) -/
  | encReset (operand : Bytes)
  /-- `ENC_WRITE`, command `0x11` (R111) -/
  | encWrite (chunk : Bytes)
  /-- `ENC_END`, command `0x12`; the operand must be empty (R120, R86) -/
  | encEnd (operand : Bytes)
  /-- `DEC_RESET`, command `0x20`; the operand must be one byte `00` or `01` (R221, R86) -/
  | decReset (operand : Bytes)
  /-- `DEC_WRITE`, command `0x21` (R141) -/
  | decWrite (chunk : Bytes)
  /-- `DEC_END`, command `0x22`; the operand must be empty (R162, R86) -/
  | decEnd (operand : Bytes)
  /-- `MASK`, command `0x30` (R100) -/
  | mask (data : Bytes)
  deriving DecidableEq, Repr

/-- Whether an instruction is a frame of the stream; the others are commands of the ports. -/
def Instr.isFrame : Instr → Bool
  | .frameStreamId _ | .frameCompressed _ | .frameUncompressed _ | .frameUnskippable _ _ | .frameSkippable _ _
  | .framePadding _ => true
  | .encReset _ | .encWrite _ | .encEnd _ | .decReset _ | .decWrite _ | .decEnd _ | .mask _ => false

end Sys2Proof
end

