-- ==== Sys2Proof/WellFormed.lean ====
section
/-! DEFINITION. What an instruction must satisfy to be one the encoding can carry (`encodable`) and one the spec gives as legal
(`wellFormed`). -/

namespace Sys2Proof

/-- A frame payload fits the 24-bit length field (30_encoding.md R71). -/
def payloadFits (p : Bytes) : Bool := decide (p.length < 2 ^ 24)

/-- A command operand fits the 32-bit length field (30_encoding.md R84). -/
def operandFits (p : Bytes) : Bool := decide (p.length < 2 ^ 32)

/-- The reserved unskippable type codes `0x02..0x7F` (30_encoding.md R78). -/
def isUnskippableCode (t : Byte) : Bool := decide (0x02 ≤ t.toNat ∧ t.toNat ≤ 0x7F)

/-- The reserved skippable type codes `0x80..0xFD` (30_encoding.md R79). -/
def isSkippableCode (t : Byte) : Bool := decide (0x80 ≤ t.toNat ∧ t.toNat ≤ 0xFD)

/-- The two legal operands of `DEC_RESET` (30_encoding.md R84): `00` is `verify = false`, `01` is `verify = true`. -/
def isVerifyOperand (p : Bytes) : Bool := decide (p = [0x00#8] ∨ p = [0x01#8])

/-- The instruction's fields are ones its encoding can hold: lengths within their fields, a reserved code within its range. -/
def Instr.encodable : Instr → Bool
  | .frameStreamId p => payloadFits p
  | .frameCompressed p => payloadFits p
  | .frameUncompressed p => payloadFits p
  | .frameUnskippable t p => isUnskippableCode t && payloadFits p
  | .frameSkippable t p => isSkippableCode t && payloadFits p
  | .framePadding p => payloadFits p
  | .encReset p => operandFits p
  | .encWrite p => operandFits p
  | .encEnd p => operandFits p
  | .decReset p => operandFits p
  | .decWrite p => operandFits p
  | .decEnd p => operandFits p
  | .mask p => operandFits p

/-- Encodable, and a command's operand is one that 30_encoding.md R84 lists.  (An encodable command that is not well formed is an
illegal packet of R86: it has a meaning, the refusal.) -/
def Instr.wellFormed : Instr → Bool
  | .encReset p => decide (p = [])
  | .encEnd p => decide (p = [])
  | .decEnd p => decide (p = [])
  | .decReset p => isVerifyOperand p
  | .frameStreamId p => payloadFits p
  | .frameCompressed p => payloadFits p
  | .frameUncompressed p => payloadFits p
  | .frameUnskippable t p => isUnskippableCode t && payloadFits p
  | .frameSkippable t p => isSkippableCode t && payloadFits p
  | .framePadding p => payloadFits p
  | .encWrite p => operandFits p
  | .decWrite p => operandFits p
  | .mask p => operandFits p

end Sys2Proof
end

