-- ==== Sys2Proof/Decode.lean ====
section
/-! DEFINITION. Wire formats (30_encoding.md): byte order, the frame-type map, the frame decoder, the command-packet decoder, and the
encoder of both.  Both decoders are total: every byte sequence is an instruction or a rejection by name. -/

namespace Sys2Proof

/-! ### Byte order (00_scope.md R11, 20_memory.md R53) -/

/-- `s[i]` (R9).  Read only inside `s` by every rule; the default of an index outside is never used
(DESIGN CHOICE, log 15). -/
def byteAt (s : Bytes) (i : Nat) : Byte := s.getD i 0x00#8

/-- `MemRead(s, i, n)`, the slice `s[i..i+n)` (R12).  R12 defines it for `i + n <= |s|` only; beyond that this answers the bytes that are there,
which is the model's choice and reached by no meaning (DESIGN CHOICE, log 15). -/
def memRead (s : Bytes) (i n : Nat) : Bytes := (s.drop i).take n

/-- `LE24(s, i)` (R11); outside R11's range the model's choice (log 15). -/
def le24 (s : Bytes) (i : Nat) : Nat :=
  (byteAt s i).toNat + 256 * (byteAt s (i + 1)).toNat + 65536 * (byteAt s (i + 2)).toNat

/-- `LE32(s, i)` as a number (R11); outside R11's range the model's choice (log 15). -/
def le32Nat (s : Bytes) (i : Nat) : Nat :=
  (byteAt s i).toNat + 2 ^ 8 * (byteAt s (i + 1)).toNat + 2 ^ 16 * (byteAt s (i + 2)).toNat
    + 2 ^ 24 * (byteAt s (i + 3)).toNat

/-- `LE32(s, i)` as a `UInt32` (R11, R74). -/
def le32 (s : Bytes) (i : Nat) : Word := BitVec.ofNat 32 (le32Nat s i)

/-- `pack24(n)`, for `n < 2^24` (R11); a larger `n` loses its high bits, the model's choice (log 15). -/
def pack24 (n : Nat) : Bytes :=
  [BitVec.ofNat 8 n, BitVec.ofNat 8 (n / 256), BitVec.ofNat 8 (n / 65536)]

/-- `pack32(v)` (R11). -/
def pack32 (v : Word) : Bytes :=
  [v.extractLsb' 0 8, v.extractLsb' 8 8, v.extractLsb' 16 8, v.extractLsb' 24 8]

/-! ### The frame-type map (R76, R77) -/

/-- `MAGIC`, the ASCII bytes of `sNaPpY` (R75; the hexadecimal values are the spec's general knowledge, log 13). -/
def magic : Bytes := [0x73#8, 0x4E#8, 0x61#8, 0x50#8, 0x70#8, 0x59#8]

/-- `ID_FRAME`, the 10-byte stream-identifier frame (R75). -/
def idFrame : Bytes := [0xFF#8, 0x06#8, 0x00#8, 0x00#8] ++ magic

/-- The closed tagged variant of R77, which selects a frame's handling (R146). -/
inductive FrameClass where
  | identifier
  | compressed
  | uncompressed
  | padding
  | skippable (code : Byte)
  | unskippable (code : Byte)
  deriving DecidableEq, Repr

/-- `class(t)`, total on the 256 type codes, by the ranges of R77. -/
def classify (t : Byte) : FrameClass :=
  if t = 0x00#8 then .compressed
  else if t = 0x01#8 then .uncompressed
  else if t.toNat ≤ 0x7F then .unskippable t
  else if t.toNat ≤ 0xFD then .skippable t
  else if t = 0xFE#8 then .padding
  else .identifier

/-- The frame instruction of a type code and a payload (R76, R77). -/
def frameInstr (t : Byte) (payload : Bytes) : Instr :=
  match classify t with
  | .identifier => .frameStreamId payload
  | .compressed => .frameCompressed payload
  | .uncompressed => .frameUncompressed payload
  | .padding => .framePadding payload
  | .skippable code => .frameSkippable code payload
  | .unskippable code => .frameUnskippable code payload

/-! ### Decoding -/

/-- Why a decoder refuses its bytes. -/
inductive DecodeError where
  /-- fewer than the 4 bytes of a frame header (R80) -/
  | frameHeaderIncomplete
  /-- the header announces more payload than is there (R80) -/
  | framePayloadIncomplete
  /-- fewer than the 5 bytes before a packet's operand (R84, R87) -/
  | packetTooShort
  /-- `n` is not the number of operand bytes that follow (R84, R87) -/
  | operandLengthMismatch
  /-- a `cmd` that is not in R84's table (R86) -/
  | unknownCommand (cmd : Byte)
  deriving DecidableEq, Repr

/-- The payload length in the header of the frame at offset `c` (R71). -/
def payloadLength (data : Bytes) (c : Nat) : Nat := le24 data (c + 1)

/-- `complete(data, c)`: the length prefix is readable and the whole frame is there (R80, R144). -/
def complete (data : Bytes) (c : Nat) : Bool :=
  decide (4 ≤ data.length - c ∧ 4 + payloadLength data c ≤ data.length - c)

/-- The first frame of `data` and the bytes after it (R70, R72, R80). -/
def decodeFrame (data : Bytes) : Except DecodeError (Instr × Bytes) :=
  if data.length < 4 then .error .frameHeaderIncomplete
  else if data.length < 4 + payloadLength data 0 then .error .framePayloadIncomplete
  else .ok (frameInstr (byteAt data 0) (memRead data 4 (payloadLength data 0)), data.drop (4 + payloadLength data 0))

/-- The command of a code of R84's table, with its operand field. -/
def commandInstr (cmd : Byte) (operand : Bytes) : Option Instr :=
  if cmd = 0x10#8 then some (.encReset operand)
  else if cmd = 0x11#8 then some (.encWrite operand)
  else if cmd = 0x12#8 then some (.encEnd operand)
  else if cmd = 0x20#8 then some (.decReset operand)
  else if cmd = 0x21#8 then some (.decWrite operand)
  else if cmd = 0x22#8 then some (.decEnd operand)
  else if cmd = 0x30#8 then some (.mask operand)
  else none

/-- A command packet: `cmd`, `n` as `LE32`, then exactly `n` operand bytes (R84).  An operand that R84 does not list for the command
is decoded as it stands, and the command's meaning refuses it (R86). -/
def decodePacket (p : Bytes) : Except DecodeError Instr :=
  if p.length < 5 then .error .packetTooShort
  else match commandInstr (byteAt p 0) (p.drop 5) with
    | none => .error (.unknownCommand (byteAt p 0))
    | some i => if p.length = 5 + le32Nat p 1 then .ok i else .error .operandLengthMismatch

/-! ### Encoding -/

/-- `[t] ++ pack24(|payload|) ++ payload` (R70, R83). -/
def encodeFrame (t : Byte) (payload : Bytes) : Bytes := [t] ++ pack24 payload.length ++ payload

/-- `[cmd] ++ LE32 |operand| ++ operand` (R84). -/
def encodePacket (cmd : Byte) (operand : Bytes) : Bytes :=
  [cmd] ++ pack32 (BitVec.ofNat 32 operand.length) ++ operand

/-- The bytes of an instruction: a frame as R70 lays it out, a command as R84 does. -/
def encode : Instr → Bytes
  | .frameStreamId p => encodeFrame 0xFF#8 p
  | .frameCompressed p => encodeFrame 0x00#8 p
  | .frameUncompressed p => encodeFrame 0x01#8 p
  | .frameUnskippable t p => encodeFrame t p
  | .frameSkippable t p => encodeFrame t p
  | .framePadding p => encodeFrame 0xFE#8 p
  | .encReset p => encodePacket 0x10#8 p
  | .encWrite p => encodePacket 0x11#8 p
  | .encEnd p => encodePacket 0x12#8 p
  | .decReset p => encodePacket 0x20#8 p
  | .decWrite p => encodePacket 0x21#8 p
  | .decEnd p => encodePacket 0x22#8 p
  | .mask p => encodePacket 0x30#8 p

/-! ### The opcode table's words -/

/-- `n` bytes of `w`, least significant first, as the table numbers them. -/
def tableRawBytes (n w : Nat) : Bytes := (List.range n).map fun k => BitVec.ofNat 8 (w >>> (8 * k))

/-- `l` with zero bytes after it up to length `n`. -/
def padTo (n : Nat) (l : Bytes) : Bytes := l ++ List.replicate (n - l.length) 0x00#8

/-- Whether a byte is a command code of R84. -/
def isCommandCode (b : Byte) : Bool := (commandInstr b []).isSome

/-- The whole instruction whose first `nbits` bits are `w` and whose further bits are zero: its header filled up, then as many operand
or payload bytes as the header announces.  A byte that is both a command code and a frame type is read as the command (log 12). -/
def tableBytes (nbits w : Nat) : Bytes :=
  let raw := tableRawBytes ((nbits + 7) / 8) w
  if isCommandCode (byteAt raw 0) then
    let h := padTo 5 raw
    padTo (5 + le32Nat h 1) h
  else
    let h := padTo 4 raw
    padTo (4 + payloadLength h 0) h

/-- What the decoders read from an opcode-table word. -/
def decodeTableWord (nbits w : Nat) : Option Instr :=
  let b := tableBytes nbits w
  if isCommandCode (byteAt b 0) then
    match decodePacket b with
    | .ok i => some i
    | .error _ => none
  else
    match decodeFrame b with
    | .ok r => some r.1
    | .error _ => none

end Sys2Proof
end

