-- ==== Sys2Proof/Machine/State.lean ====
section
/-! DEFINITION. The state of the block (10_state.md), the outcomes of a step, and the state right after reset. -/

namespace Sys2Proof.Machine

/-- Nothing stops this machine: every error of the block is a response and a phase (60_exceptions.md R192, R194), and every command or
packet the spec gives no meaning is answered `Refused` (10_state.md R41).  So there is no fault to name. -/
inductive Fault
  deriving DecidableEq, Repr

/-- Why the model, not the hardware, would give an instruction no meaning. -/
inductive Refusal where
  /-- Raised by an arm of `exec` whose instruction has no meaning yet; no arm does.  Safe: the model stops where the hardware goes on. -/
  | notModelled (mnemonic : String)
  deriving DecidableEq, Repr

/-- `enc.phase` (R23). -/
inductive EncPhase where
  /-- the spec's `Open` (code 0) -/
  | opened
  /-- `Closed` (code 1) -/
  | closed
  /-- `Failed` (code 2) -/
  | failed
  deriving DecidableEq, Repr

/-- `dec.phase` (R28). -/
inductive DecPhase where
  | notStarted
  | awaitingIdentifier
  | streaming
  | closed
  | failed
  deriving DecidableEq, Repr

/-- One encoder instance (R23-R26, R41). -/
structure EncUnit where
  /-- whether `ENC_RESET` has ever been performed on this instance (R222) -/
  everReset : Bool
  /-- `enc.phase` (R23) -/
  phase : EncPhase
  /-- `enc.err`, `none` for `NONE` (R24) -/
  err : Option ErrorKind
  /-- `enc.out`, everything emitted since the last reset (R25) -/
  out : Bytes
  /-- the model-level sticky bit `protocol_fault` (R41) -/
  protocolFault : Bool
  deriving DecidableEq, Repr

/-- One decoder instance (R28-R33, R41). -/
structure DecUnit where
  /-- whether `DEC_RESET` has ever been performed on this instance (R222) -/
  everReset : Bool
  /-- `dec.phase` (R28) -/
  phase : DecPhase
  /-- `dec.found` (R29) -/
  found : Bool
  /-- `dec.residual` (R30) -/
  residual : Bytes
  /-- `dec.verify` (R31) -/
  verify : Bool
  /-- `dec.err`, `none` for `NONE` (R32) -/
  err : Option ErrorKind
  /-- `dec.out` (R33) -/
  out : Bytes
  /-- the model-level sticky bit `protocol_fault` (R41) -/
  protocolFault : Bool
  /-- the model-level sticky bit `capacity_fault` (R41, R61) -/
  capacityFault : Bool
  deriving DecidableEq, Repr

/-- The mask unit: no architectural state (R40), only the model-level sticky bit every unit has (R41, R43). -/
structure MaskUnit where
  protocolFault : Bool
  deriving DecidableEq, Repr

/-- The transient values of one `DEC_WRITE` step (R34-R36), which the frame instructions read and write. -/
structure Work where
  /-- whether a delivery is in progress; an error ends it -/
  active : Bool
  /-- the decoder instance whose delivery it is -/
  inst : Nat
  /-- `data` (R34) -/
  data : Bytes
  /-- `cur` (R35) -/
  cur : Nat
  /-- `batch` (R36) -/
  batch : List DataTuple
  /-- `found'` (R36) -/
  found : Bool
  deriving DecidableEq, Repr

/-- A command port: one per unit instance (R20, R22, R202). -/
inductive Port where
  | enc (inst : Nat)
  | dec (inst : Nat)
  | mask
  deriving DecidableEq, Repr

/-- A response (R42). -/
inductive Response where
  /-- `Ok(b)`: the bytes the command appended to the unit's output -/
  | ok (b : Bytes)
  /-- `OkMask(v)` -/
  | okMask (v : Word)
  /-- `Err(k)` -/
  | err (k : ErrorKind)
  /-- `Dropped`: a command issued in `Failed` -/
  | dropped
  /-- `Refused`: the command set a model-level fault bit -/
  | refused
  deriving DecidableEq, Repr

/-- The block and its host interface. -/
structure State where
  /-- the encoder instances, by number, in canonical form: numbers rising, no never-used instance listed (R22) -/
  encs : List (Nat × EncUnit)
  /-- the decoder instances, in the same form (R22) -/
  decs : List (Nat × DecUnit)
  /-- the mask unit -/
  maskUnit : MaskUnit
  /-- the transient values of the delivery in progress (R34-R36) -/
  work : Work
  /-- the port whose command is being performed, or was performed last (R20) -/
  port : Port
  /-- the command packets issued and not yet performed, oldest first, each with the port it was sent to (R58) -/
  pending : List (Port × Bytes)
  /-- the responses returned, oldest first, each with its port (R42) -/
  responses : List (Port × Response)
  /-- the model's own counter of draws taken, which makes each free value a fresh one (log 5) -/
  draws : Nat
  deriving DecidableEq, Repr

/-- An encoder right after `ENC_RESET` (R43, R220). -/
def EncUnit.fresh : EncUnit where
  everReset := true
  phase := .opened
  err := none
  out := idFrame
  protocolFault := false

/-- A decoder right after `DEC_RESET verify` (R43, R221). -/
def DecUnit.fresh (verify : Bool) : DecUnit where
  everReset := true
  phase := .notStarted
  found := false
  residual := []
  verify := verify
  err := none
  out := []
  protocolFault := false
  capacityFault := false

/-- An encoder that has never been reset.  The spec leaves its registers undefined (R222), and no rule reads them: placeholders (log 2). -/
def EncUnit.neverReset : EncUnit where
  everReset := false
  phase := .opened
  err := none
  out := []
  protocolFault := false

/-- A decoder that has never been reset: placeholders, as for the encoder (R222, log 2). -/
def DecUnit.neverReset : DecUnit where
  everReset := false
  phase := .notStarted
  found := false
  residual := []
  verify := false
  err := none
  out := []
  protocolFault := false
  capacityFault := false

/-- No delivery in progress: the value the transient fields hold between commands (R43, log 3). -/
def Work.idle : Work where
  active := false
  inst := 0
  data := []
  cur := 0
  batch := []
  found := false

/-- Right after reset: encoder 0 and decoder 0 have been reset (R223 step 3) and hold R43's values, every other instance has never been
reset; `verify` is true (log 1); nothing is issued, nothing has been answered (log 4). -/
def State.reset : State where
  encs := [(0, EncUnit.fresh)]
  decs := [(0, DecUnit.fresh true)]
  maskUnit := { protocolFault := false }
  work := Work.idle
  port := .mask
  pending := []
  responses := []
  draws := 0

end Sys2Proof.Machine
end

