-- ==== Sys2Proof/Machine/Operands.lean ====
section
/-! DEFINITION. The operand forms: the operand field of a command packet (30_encoding.md R84, R86) and the fields of a data frame's
payload (R73, R74). -/

namespace Sys2Proof.Machine

/-- `verify` as `DEC_RESET`'s operand byte (R84): `00` is false, `01` is true, and any other operand is none (R86). -/
def verifyOperand (operand : Bytes) : Option Bool :=
  if operand = [0x00#8] then some false
  else if operand = [0x01#8] then some true
  else none

/-- `checksum_mask`, the first four bytes of a data frame's payload (R73, R74). -/
def checksumField (payload : Bytes) : Word := le32 payload 0

/-- `block`, the `payload_length - 4` bytes after the checksum (R73, R145); read only when there are four (R150, log 15). -/
def blockField (payload : Bytes) : Bytes := memRead payload 4 (payload.length - 4)

end Sys2Proof.Machine
end

