-- ==== Sys2Proof/Machine/Flags.lean ====
section
/-! DEFINITION. The flags, phases, codes and status words: the phase that a delivery leaves (42_decoder.md R159), the numeric codes of
phases and errors (10_state.md R23, R28, 60_exceptions.md R190), the status words (10_state.md R46), and the response
packets (30_encoding.md R85). -/

namespace Sys2Proof.Machine

/-- `nextPhase(found', residual')` (R159). -/
def nextPhase (found : Bool) (residual : Bytes) : DecPhase :=
  if found then .streaming else if residual = [] then .notStarted else .awaitingIdentifier

/-- Whether a decoder phase is terminal (R14, R38). -/
def DecPhase.isTerminal : DecPhase → Bool
  | .closed | .failed => true
  | .notStarted | .awaitingIdentifier | .streaming => false

/-- The code of an encoder phase (R23). -/
def encPhaseCode : EncPhase → Nat
  | .opened => 0
  | .closed => 1
  | .failed => 2

/-- The code of a decoder phase (R28). -/
def decPhaseCode : DecPhase → Nat
  | .notStarted => 0
  | .awaitingIdentifier => 1
  | .streaming => 2
  | .closed => 3
  | .failed => 4

/-- The code of an error kind (R190). -/
def errorCode : ErrorKind → Nat
  | .missingStreamIdentifier => 1
  | .invalidStreamIdentifier => 2
  | .unskippableFrame => 3
  | .checksumMismatch => 4
  | .truncatedStream => 5
  | .compressionFailure => 6
  | .decompressionFailure => 7
  | .shortDataFrame => 8

/-- The code in an `err` register: 0 for `NONE` (R24, R32, R190). -/
def errRegisterCode : Option ErrorKind → Nat
  | none => 0
  | some k => errorCode k

/-- `ENC_STATUS` (R46), most significant field first: reserved, protocol_fault, err, reserved, phase. -/
def encStatus (u : EncUnit) : BitVec 16 :=
  0#7 ++ BitVec.ofBool u.protocolFault ++ BitVec.ofNat 4 (errRegisterCode u.err) ++ 0#2
    ++ BitVec.ofNat 2 (encPhaseCode u.phase)

/-- `DEC_STATUS` (R46), most significant field first: reserved, capacity_fault, protocol_fault, err, reserved, verify, found, phase. -/
def decStatus (u : DecUnit) : BitVec 16 :=
  0#2 ++ BitVec.ofBool u.capacityFault ++ BitVec.ofBool u.protocolFault ++ BitVec.ofNat 4 (errRegisterCode u.err) ++ 0#3
    ++ BitVec.ofBool u.verify ++ BitVec.ofBool u.found ++ BitVec.ofNat 3 (decPhaseCode u.phase)

/-- The mask unit's status word: R46 says each unit exposes one and lays this one out nowhere, so the word is a free value of the unit's state, of the
width the two others have (DESIGN CHOICE, log 19). -/
def maskStatus (u : MaskUnit) : BitVec 16 := Config.maskStatusWord u.protocolFault

/-- The response packet (R85).  `Ok(b)` has one only when `LE32` can announce `|b|` (log 11). -/
def responsePacket : Response → Option Bytes
  | .ok b => if b.length < 2 ^ 32 then some ([0x00#8] ++ pack32 (BitVec.ofNat 32 b.length) ++ b) else none
  | .okMask v => some ([0x00#8] ++ pack32 4#32 ++ pack32 v)
  | .err k => some [BitVec.ofNat 8 (errorCode k)]
  | .refused => some [0xFD#8]
  | .dropped => some [0xFE#8]

end Sys2Proof.Machine
end

