-- ==== Sys2Proof/Machine/Ops.lean ====
section
/-! DEFINITION. The shared operations: reading and writing a unit instance, emitting, replying, taking an error (60_exceptions.md R192),
refusing and dropping a command (10_state.md R41, R42), resetting a unit (70_reset_and_hazards.md R220, R221), and admitting a
command to a unit (R86, R119, R161, R194, R222). -/

namespace Sys2Proof.Machine

/-! ### Banks of unit instances (10_state.md R22) -/

/-- The unit of number `k` in a bank; a number not listed is a unit `d` that has never been used. -/
def bankRead {α : Type} (d : α) : List (Nat × α) → Nat → α
  | [], _ => d
  | (j, v) :: rest, k => if j = k then v else bankRead d rest k

/-- The bank with a listed unit `v` of number `k`, at its place among rising numbers. -/
def bankInsert {α : Type} : List (Nat × α) → Nat → α → List (Nat × α)
  | [], k, v => [(k, v)]
  | (j, w) :: rest, k, v =>
    if j < k then (j, w) :: bankInsert rest k v
    else if j = k then (k, v) :: rest
    else (k, v) :: (j, w) :: rest

/-- The bank with the unit of number `k` set to `v`, in canonical form: numbers rising, no unit equal to `d` listed. -/
def bankWrite {α : Type} [DecidableEq α] (d : α) (b : List (Nat × α)) (k : Nat) (v : α) : List (Nat × α) :=
  if v = d then b.filter (fun e => decide (e.1 ≠ k)) else bankInsert b k v

/-- The canonical form of a bank. -/
def bankWf {α : Type} [DecidableEq α] (d : α) : List (Nat × α) → Bool
  | [] => true
  | (k, v) :: rest => decide (v ≠ d) && rest.all (fun e => decide (k < e.1)) && bankWf d rest

/-- Encoder instance `k`. -/
def State.enc (s : State) (k : Nat) : EncUnit := bankRead EncUnit.neverReset s.encs k

/-- Decoder instance `k`. -/
def State.dec (s : State) (k : Nat) : DecUnit := bankRead DecUnit.neverReset s.decs k

/-- The status word that the unit at a port exposes (10_state.md R46): a view of that unit, whose reading changes nothing. -/
def State.statusWord (s : State) : Port → BitVec 16
  | .enc k => encStatus (s.enc k)
  | .dec k => decStatus (s.dec k)
  | .mask => maskStatus s.maskUnit

/-- Set encoder instance `k`. -/
def State.setEnc (s : State) (k : Nat) (u : EncUnit) : State :=
  { s with encs := bankWrite EncUnit.neverReset s.encs k u }

/-- Set decoder instance `k`. -/
def State.setDec (s : State) (k : Nat) (u : DecUnit) : State :=
  { s with decs := bankWrite DecUnit.neverReset s.decs k u }

/-- Set the transient values of the delivery. -/
def State.setWork (s : State) (w : Work) : State := { s with work := w }

/-- Let port `p` hold the command to be performed (10_state.md R20). -/
def State.onPort (s : State) (p : Port) : State := { s with port := p }

/-- Record that `n` more draws have been taken. -/
def State.takeDraws (s : State) (n : Nat) : State := { s with draws := s.draws + n }

/-! ### Replying and emitting -/

/-- `reply r` on port `p` (00_scope.md R12, 10_state.md R42). -/
def State.reply (s : State) (p : Port) (r : Response) : State :=
  { s with responses := s.responses ++ [(p, r)] }

/-- `emit(enc, b)` (R25). -/
def State.emitEnc (s : State) (k : Nat) (b : Bytes) : State :=
  s.setEnc k { s.enc k with out := (s.enc k).out ++ b }

/-! ### Errors -/

/-- Entry to `Failed` (60_exceptions.md R192): the unit's phase and error kind are written, the response is `Err(K)`, and every other
register keeps the value it had before the command.  The mask unit raises no error (R100, R190). -/
def State.raise (s : State) (p : Port) (kind : ErrorKind) : State :=
  match p with
  | .enc k => (s.setEnc k { s.enc k with phase := .failed, err := some kind }).reply p (.err kind)
  | .dec k => (s.setDec k { s.dec k with phase := .failed, err := some kind }).reply p (.err kind)
  | .mask => s

/-- The only way out of `Failed` (60_exceptions.md R196): `ENC_RESET`'s fresh encoder (R220). -/
def State.resetEnc (s : State) (k : Nat) : State :=
  (s.setEnc k EncUnit.fresh).reply (.enc k) (.ok idFrame)

/-- The only way out of `Failed` (60_exceptions.md R196): `DEC_RESET verify`'s fresh decoder (R221). -/
def State.resetDec (s : State) (k : Nat) (verify : Bool) : State :=
  (s.setDec k (DecUnit.fresh verify)).reply (.dec k) (.ok [])

/-! ### Commands without a meaning -/

/-- `protocol_fault <- true; reply Refused`, nothing else (10_state.md R41, 30_encoding.md R86, 70_reset_and_hazards.md R222). -/
def State.refuse (s : State) (p : Port) : State :=
  match p with
  | .enc k => (s.setEnc k { s.enc k with protocolFault := true }).reply p .refused
  | .dec k => (s.setDec k { s.dec k with protocolFault := true }).reply p .refused
  | .mask => { s with maskUnit := { protocolFault := true } }.reply p .refused

/-- `capacity_fault <- true; reply Refused`, nothing else (20_memory.md R61, 42_decoder.md R160). -/
def State.refuseCapacity (s : State) (k : Nat) : State :=
  (s.setDec k { s.dec k with capacityFault := true }).reply (.dec k) .refused

/-- `reply Dropped`, nothing else (60_exceptions.md R194). -/
def State.drop (s : State) (p : Port) : State := s.reply p .dropped

/-! ### Admission -/

/-- Admit `ENC_WRITE` or `ENC_END`: `body` runs in `Open`; the packet is refused when its port is no encoder's (R86), when the encoder has
never been reset (R222) or is `Closed` (R119), and dropped when it is `Failed` (R194). -/
def admitEnc (s : State) (body : Nat → Host.Outcome State Fault Refusal) : Host.Outcome State Fault Refusal :=
  match s.port with
  | .enc k =>
    if (s.enc k).everReset then
      match (s.enc k).phase with
      | .opened => body k
      | .closed => .next (s.refuse (.enc k))
      | .failed => .next (s.drop (.enc k))
    else .next (s.refuse (.enc k))
  | .dec k => .next (s.refuse (.dec k))
  | .mask => .next (s.refuse .mask)

/-- Admit `DEC_WRITE` or `DEC_END`: `body` runs in the live phases; refused or dropped as for the encoder (R86, R161, R194, R222). -/
def admitDec (s : State) (body : Nat → Host.Outcome State Fault Refusal) : Host.Outcome State Fault Refusal :=
  match s.port with
  | .dec k =>
    if (s.dec k).everReset then
      match (s.dec k).phase with
      | .notStarted => body k
      | .awaitingIdentifier => body k
      | .streaming => body k
      | .closed => .next (s.refuse (.dec k))
      | .failed => .next (s.drop (.dec k))
    else .next (s.refuse (.dec k))
  | .enc k => .next (s.refuse (.enc k))
  | .mask => .next (s.refuse .mask)

end Sys2Proof.Machine
end

