-- ==== Sys2Proof/Machine/Mask.lean ====
section
/-! DEFINITION. The MASK unit (40_mask.md): the masking transform, the masked checksum, the command `MASK`, and the standard CRC-32C that
00_scope.md R8's `LAW_CRC` names. -/

namespace Sys2Proof.Machine

/-- `rotr32(c, k)` for `0 < k < 32` (00_scope.md R10); at other `k`, where R10 does not define it and no meaning is, the model's choice (log 15). -/
def rotr32 (c : Word) (k : Nat) : Word := (c >>> k) ||| (c <<< (32 - k))

/-- `rotl32(c, k) = rotr32(c, 32 - k)` (00_scope.md R10). -/
def rotl32 (c : Word) (k : Nat) : Word := rotr32 c (32 - k)

/-- `MASK_ROT` (00_scope.md R7). -/
def maskRot : Nat := 15

/-- `MASK_OFFSET` (00_scope.md R7). -/
def maskOffset : Word := 0xA282EAD8#32

/-- The masking transform `T` (40_mask.md R101). -/
def maskTransform (c : Word) : Word := rotr32 c maskRot + maskOffset

/-- `Tinv` (40_mask.md R105). -/
def maskInverse (m : Word) : Word := rotl32 (m - maskOffset) maskRot

/-- `mask(data)`, the masked checksum: the one definition the encoder and the decoder use too (40_mask.md R100, R103). -/
def maskOf (c : Collaborators) (data : Bytes) : Word := maskTransform (c.crc32c data)

/-- One bit of the CRC-32C loop (40_mask.md R102). -/
def crcBit (r : Word) : Word := if r.getLsbD 0 then (r >>> 1) ^^^ 0x82F63B78#32 else r >>> 1

/-- One byte of the CRC-32C loop (40_mask.md R102). -/
def crcByte (r : Word) (x : Byte) : Word :=
  crcBit (crcBit (crcBit (crcBit (crcBit (crcBit (crcBit (crcBit (r ^^^ x.zeroExtend 32))))))))

/-- The standard CRC-32C (40_mask.md R102, the spec's general knowledge): the recommended binding of the OPEN `crc32c`, used only in
hypotheses and tests. -/
def crc32cStandard (s : Bytes) : Word := s.foldl crcByte 0xFFFFFFFF#32 ^^^ 0xFFFFFFFF#32

/-- `MASK data` with collaborators `c` (R100): no register is written.  On a port that is not the mask unit's the packet is refused (R86). -/
def maskCommand (c : Collaborators) (data : Bytes) (s : State) : Host.Outcome State Fault Refusal :=
  match s.port with
  | .mask => .next (s.reply .mask (.okMask (maskOf c data)))
  | .enc k => .next (s.refuse (.enc k))
  | .dec k => .next (s.refuse (.dec k))

/-- `MASK` (R100). -/
def execMask (data : Bytes) (s : State) : Host.Outcome State Fault Refusal := maskCommand Config.platform data s

end Sys2Proof.Machine
end

