-- ==== Sys2Proof/Machine/Frames.lean ====
section
/-! DEFINITION. The frame instructions (42_decoder.md R147-R153): what each type class does with the complete frame at `cur` of the
delivery in progress.  They read and write the transient values of the step (10_state.md R34-R36) and no register, except that an
error enters `Failed` at once (60_exceptions.md R192). -/

namespace Sys2Proof.Machine

/-- `cur <- cur + 4 + payload_length` (R154). -/
def Work.advance (w : Work) (payload : Bytes) : Work := { w with cur := w.cur + 4 + payload.length }

/-- A frame's error: the decoder enters `Failed`, the command ends, and the step's transient values are gone (R192, 10_state.md R43). -/
def State.raiseInDelivery (s : State) (kind : ErrorKind) : State :=
  (s.raise (.dec s.work.inst) kind).setWork Work.idle

/-- Discard the frame (R151, R152). -/
def State.skipFrame (s : State) (payload : Bytes) : State := s.setWork (s.work.advance payload)

/-- Record a data frame's tuple (R148, R149), or reject one too short for its checksum (R150). -/
def State.recordFrame (s : State) (kind : DataKind) (payload : Bytes) : State :=
  if payload.length < 4 then s.raiseInDelivery .shortDataFrame
  else
    s.setWork { s.work.advance payload with
      batch := s.work.batch ++ [{ kind := kind, checksumMask := checksumField payload, block := blockField payload }] }

/-- `FRAME_STREAM_ID` (R147): the payload must be `MAGIC`, which has length 6. -/
def execFrameStreamId (payload : Bytes) (s : State) : Host.Outcome State Fault Refusal :=
  if payload = magic then .next (s.setWork { s.work.advance payload with found := true })
  else .next (s.raiseInDelivery .invalidStreamIdentifier)

/-- `FRAME_COMPRESSED` (R148). -/
def execFrameCompressed (payload : Bytes) (s : State) : Host.Outcome State Fault Refusal :=
  .next (s.recordFrame .compressed payload)

/-- `FRAME_UNCOMPRESSED` (R149). -/
def execFrameUncompressed (payload : Bytes) (s : State) : Host.Outcome State Fault Refusal :=
  .next (s.recordFrame .uncompressed payload)

/-- `FRAME_PADDING` (R151). -/
def execFramePadding (payload : Bytes) (s : State) : Host.Outcome State Fault Refusal := .next (s.skipFrame payload)

/-- `FRAME_SKIPPABLE` (R152): no code of the range has a meaning of its own. -/
def execFrameSkippable (_code : Byte) (payload : Bytes) (s : State) : Host.Outcome State Fault Refusal :=
  .next (s.skipFrame payload)

/-- `FRAME_UNSKIPPABLE` (R153): the decoder recognises no code of the range (30_encoding.md R78). -/
def execFrameUnskippable (_code : Byte) (_payload : Bytes) (s : State) : Host.Outcome State Fault Refusal :=
  .next (s.raiseInDelivery .unskippableFrame)

/-- Extract the frame at `cur` and run the meaning its type class selects, by nothing else (R145, R146). -/
def runFrame (s : State) : Host.Outcome State Fault Refusal :=
  let payload := memRead s.work.data (s.work.cur + 4) (payloadLength s.work.data s.work.cur)
  match classify (byteAt s.work.data s.work.cur) with
  | .identifier => execFrameStreamId payload s
  | .compressed => execFrameCompressed payload s
  | .uncompressed => execFrameUncompressed payload s
  | .padding => execFramePadding payload s
  | .skippable code => execFrameSkippable code payload s
  | .unskippable code => execFrameUnskippable code payload s

/-- The frame loop (R141, R144): while the delivery is in progress and a complete frame stands at `cur`, run it.  Each frame takes at
least four bytes, so `|data|` rounds are always enough. -/
def runFrames : Nat → State → Host.Outcome State Fault Refusal
  | 0, s => .next s
  | fuel + 1, s =>
    if s.work.active && complete s.work.data s.work.cur then
      match runFrame s with
      | .next t => runFrames fuel t
      | .fault r => .fault r
      | .refused r => .refused r
    else .next s

end Sys2Proof.Machine
end

