-- ==== Sys2Proof/Machine/Dec.lean ====
section
/-! DEFINITION. The DEC unit (42_decoder.md): the delivery procedure of `DEC_WRITE`, the batch, and the commands `DEC_RESET`, `DEC_END`. -/

namespace Sys2Proof.Machine

/-- The decoded block of a tuple before its checksum is looked at: the block verbatim, or the decompressor's answer (R156). -/
def decodeBlock (c : Collaborators) (t : DataTuple) : Option Bytes :=
  match t.kind with
  | .uncompressed => some t.block
  | .compressed => c.decompressFn t.block

/-- `decodeTuple` (R156), with the checksum check of R157 over the decoded block. -/
def decodeTuple (c : Collaborators) (verify : Bool) (t : DataTuple) : Except ErrorKind Bytes :=
  match decodeBlock c t with
  | none => .error .decompressionFailure
  | some d => if verify && decide (maskOf c d ≠ t.checksumMask) then .error .checksumMismatch else .ok d

/-- The failing tuples of a batch, from index `i` on, in index order (R158). -/
def failingTuples (c : Collaborators) (verify : Bool) : Nat → List DataTuple → List FailedTuple
  | _, [] => []
  | i, t :: rest =>
    match decodeTuple c verify t with
    | .ok _ => failingTuples c verify (i + 1) rest
    | .error e => { index := i, tuple := t, error := e } :: failingTuples c verify (i + 1) rest

/-- The decoded blocks of a batch, concatenated in tuple order (R158, 20_memory.md R57). -/
def decodedBytes (c : Collaborators) (verify : Bool) : List DataTuple → Bytes
  | [] => []
  | t :: rest =>
    match decodeTuple c verify t with
    | .ok d => d ++ decodedBytes c verify rest
    | .error _ => decodedBytes c verify rest

/-- The error a failing batch reports: that of the tuple `pickError` selects among the failing ones (R158, 60_exceptions.md R195). -/
def pickedError (c : Collaborators) (draw : Nat) (first : FailedTuple) (others : List FailedTuple) : ErrorKind :=
  ((first :: others).getD (c.pickError draw (first :: others) % (others.length + 1)) first).error

/-- Whether a residual is longer than `RESIDUAL_CAP` (20_memory.md R61). -/
def exceedsCap (c : Collaborators) (residual : Bytes) : Bool :=
  match c.residualCap with
  | none => false
  | some cap => decide (cap < residual.length)

/-- Commit a successful delivery of decoder `k` (R158, R159): the residual, `found`, the phase, the output, the reply. -/
def State.commitDelivery (s : State) (k : Nat) (found : Bool) (residual b : Bytes) : State :=
  (s.setDec k { s.dec k with
      residual := residual, found := found, out := (s.dec k).out ++ b, phase := nextPhase found residual }).reply
    (.dec k) (.ok b)

/-- The end of a delivery whose frames all parsed (R155-R160): the batch's error, or the capacity refusal, or the commit.  The transient
values are gone either way. -/
def finishDelivery (c : Collaborators) (s : State) : State :=
  let w := s.work
  let residual := w.data.drop w.cur
  let verify := (s.dec w.inst).verify
  match failingTuples c verify 0 w.batch with
  | first :: others =>
    ((s.setWork Work.idle).takeDraws 1).raise (.dec w.inst) (pickedError c s.draws first others)
  | [] =>
    if exceedsCap c residual then (s.setWork Work.idle).refuseCapacity w.inst
    else (s.setWork Work.idle).commitDelivery w.inst w.found residual (decodedBytes c verify w.batch)

/-- The stream-identifier check (R143): made on non-empty data while no identifier has been found. -/
def missingIdentifier (found : Bool) (data : Bytes) : Bool :=
  !found && decide (data ≠ [] ∧ byteAt data 0 ≠ 0xFF#8)

/-- The transient values at the start of a delivery (R142, 10_state.md R34-R36). -/
def Work.start (k : Nat) (data : Bytes) (found : Bool) : Work where
  active := true
  inst := k
  data := data
  cur := 0
  batch := []
  found := found

/-- Steps 1 to 5 of a delivery to the live decoder `k` (R141). -/
def deliver (c : Collaborators) (k : Nat) (chunk : Bytes) (s : State) : Host.Outcome State Fault Refusal :=
  let data := (s.dec k).residual ++ chunk
  let started := s.setWork (Work.start k data (s.dec k).found)
  if missingIdentifier (s.dec k).found data then .next (started.raiseInDelivery .missingStreamIdentifier)
  else
    match runFrames data.length started with
    | .next t => if t.work.active then .next (finishDelivery c t) else .next t
    | .fault r => .fault r
    | .refused r => .refused r

/-- `DEC_WRITE chunk` with collaborators `c` (R141, R161). -/
def decWrite (c : Collaborators) (chunk : Bytes) (s : State) : Host.Outcome State Fault Refusal :=
  admitDec s fun k => deliver c k chunk s

/-- `DEC_WRITE` (R141). -/
def execDecWrite (chunk : Bytes) (s : State) : Host.Outcome State Fault Refusal := decWrite Config.platform chunk s

/-- `DEC_END` (R162).  An operand that is not empty is an illegal packet (R86). -/
def execDecEnd (operand : Bytes) (s : State) : Host.Outcome State Fault Refusal :=
  if operand = [] then
    admitDec s fun k =>
      if (s.dec k).residual = [] then
        .next ((s.setDec k { s.dec k with phase := .closed }).reply (.dec k) (.ok []))
      else .next (s.raise (.dec k) .truncatedStream)
  else .next (s.refuse s.port)

/-- `DEC_RESET verify` (R221), accepted in every phase.  Any operand but `00` and `01`, or another unit's port, is an illegal packet
(R86). -/
def execDecReset (operand : Bytes) (s : State) : Host.Outcome State Fault Refusal :=
  match s.port with
  | .dec k =>
    match verifyOperand operand with
    | some verify => .next (s.resetDec k verify)
    | none => .next (s.refuse (.dec k))
  | .enc k => .next (s.refuse (.enc k))
  | .mask => .next (s.refuse .mask)

end Sys2Proof.Machine
end

