-- ==== Sys2Proof/Machine/Enc.lean ====
section
/-! DEFINITION. The ENC unit (41_encoder.md): block splitting, per-block compression, format selection, frame assembly, and the commands
`ENC_RESET`, `ENC_WRITE`, `ENC_END`. -/

namespace Sys2Proof.Machine

/-- `MAX_BLOCK` (00_scope.md R7). -/
def maxBlock : Nat := 65536

/-- `nblocks = ceil(n / MAX_BLOCK)` (R112). -/
def blockCount (n : Nat) : Nat := (n + maxBlock - 1) / maxBlock

/-- Block `k` of a delivery, `chunk[k*65536 .. min((k+1)*65536, n))`; the offset is `off` of 10_state.md R27 (R112). -/
def blockAt (chunk : Bytes) (k : Nat) : Bytes :=
  memRead chunk (k * maxBlock) (min maxBlock (chunk.length - k * maxBlock))

/-- The blocks of a delivery in input order (R112). -/
def splitBlocks (chunk : Bytes) : List Bytes := (List.range (blockCount chunk.length)).map (blockAt chunk)

/-- Whether compressor call number `n` fails: a draw, if failures can occur at all (R113, D12). -/
def compressFails (c : Collaborators) (n : Nat) : Bool := c.compressMayFail && c.compressDraw n

/-- The least compressed length that does not pay, `L - (L div 8)` (R114). -/
def formatThreshold (len : Nat) : Nat := len - len / 8

/-- Format selection (R114): the type code and the block bytes of the frame. -/
def selectFormat (block compressed : Bytes) : Byte × Bytes :=
  if formatThreshold block.length ≤ compressed.length then (0x01#8, block) else (0x00#8, compressed)

/-- Frame assembly (R116), with the checksum of the original block (R115). -/
def dataFrame (c : Collaborators) (block compressed : Bytes) : Bytes :=
  [(selectFormat block compressed).1] ++ pack24 ((selectFormat block compressed).2.length + 4) ++ pack32 (maskOf c block)
    ++ (selectFormat block compressed).2

/-- The frame of one block when its compressor call does not fail (R113, R116). -/
def blockFrame (c : Collaborators) (block : Bytes) : Bytes := dataFrame c block (c.compressFn block)

/-- Whether one of the next `n` compressor calls fails (R118). -/
def anyCompressFails (c : Collaborators) (draws n : Nat) : Bool :=
  (List.range n).any fun k => compressFails c (draws + k)

/-- The frames of a delivery in block order (R117). -/
def deliveryFrames (c : Collaborators) (chunk : Bytes) : Bytes := ((splitBlocks chunk).map (blockFrame c)).flatten

/-- `ENC_WRITE chunk` with collaborators `c` (R111): one compressor call and so one draw per block; a failing call fails the whole
delivery (R118). -/
def encWrite (c : Collaborators) (chunk : Bytes) (s : State) : Host.Outcome State Fault Refusal :=
  admitEnc s fun k =>
    let n := blockCount chunk.length
    if anyCompressFails c s.draws n then
      .next ((s.takeDraws n).raise (.enc k) .compressionFailure)
    else
      let b := deliveryFrames c chunk
      .next (((s.takeDraws n).emitEnc k b).reply (.enc k) (.ok b))

/-- `ENC_WRITE` (R111). -/
def execEncWrite (chunk : Bytes) (s : State) : Host.Outcome State Fault Refusal := encWrite Config.platform chunk s

/-- `ENC_END` (R120).  An operand that is not empty is an illegal packet (R86). -/
def execEncEnd (operand : Bytes) (s : State) : Host.Outcome State Fault Refusal :=
  if operand = [] then
    admitEnc s fun k => .next ((s.setEnc k { s.enc k with phase := .closed }).reply (.enc k) (.ok []))
  else .next (s.refuse s.port)

/-- `ENC_RESET` (R220), accepted in every phase.  An operand that is not empty, or another unit's port, is an illegal packet (R86). -/
def execEncReset (operand : Bytes) (s : State) : Host.Outcome State Fault Refusal :=
  match s.port with
  | .enc k => if operand = [] then .next (s.resetEnc k) else .next (s.refuse (.enc k))
  | .dec k => .next (s.refuse (.dec k))
  | .mask => .next (s.refuse .mask)

end Sys2Proof.Machine
end

