-- ==== Sys2Proof/Machine/Dispatch.lean ====
section
/-! DEFINITION. The dispatch: one arm per constructor of Instr, each one direct call of that instruction's meaning. -/

namespace Sys2Proof.Machine

def exec (i : Instr) (s : State) : Host.Outcome State Fault Refusal :=
  match i with
  | .frameStreamId payload => Sys2Proof.Machine.execFrameStreamId payload s
  | .frameCompressed payload => Sys2Proof.Machine.execFrameCompressed payload s
  | .frameUncompressed payload => Sys2Proof.Machine.execFrameUncompressed payload s
  | .frameUnskippable code payload => Sys2Proof.Machine.execFrameUnskippable code payload s
  | .frameSkippable code payload => Sys2Proof.Machine.execFrameSkippable code payload s
  | .framePadding payload => Sys2Proof.Machine.execFramePadding payload s
  | .encReset operand => Sys2Proof.Machine.execEncReset operand s
  | .encWrite chunk => Sys2Proof.Machine.execEncWrite chunk s
  | .encEnd operand => Sys2Proof.Machine.execEncEnd operand s
  | .decReset operand => Sys2Proof.Machine.execDecReset operand s
  | .decWrite chunk => Sys2Proof.Machine.execDecWrite chunk s
  | .decEnd operand => Sys2Proof.Machine.execDecEnd operand s
  | .mask data => Sys2Proof.Machine.execMask data s

end Sys2Proof.Machine
end

