-- ==== Sys2Proof/Machine/Fetch.lean ====
section
/-! DEFINITION. Taking the next command packet from the host's queue (10_state.md R20, 20_memory.md R58), and placing an opcode-table word
where the next step takes it. -/

namespace Sys2Proof.Machine

/-- The oldest packet issued, decoded, and the state in which its command runs: it has left the queue and its port is the one being
served.  `none` when the host has issued nothing. -/
def fetchCommand (s : State) : Option (Except DecodeError Instr × State) :=
  match s.pending with
  | [] => none
  | (p, packet) :: rest => some (decodePacket packet, { s with pending := rest, port := p })

/-- A packet that decodes to no command is refused by the unit that received it (30_encoding.md R86). -/
def State.rejectPacket (s : State) : State := s.refuse s.port

/-- The port, of instance 0, that a command code's unit nibble names (30_encoding.md R84). -/
def portOfCommand (cmd : Byte) : Port :=
  if cmd.toNat / 16 = 1 then .enc 0 else if cmd.toNat / 16 = 2 then .dec 0 else .mask

/-- Put a packet at the front of the queue. -/
def State.issueFirst (s : State) (p : Port) (packet : Bytes) : State := { s with pending := (p, packet) :: s.pending }

/-- Place an instruction's bytes so that the next step runs it.  A command packet is issued to its unit.  A frame is issued as the whole
chunk of a `DEC_WRITE` to decoder 0, which is put between frames of a stream whose identifier it has seen: that is how the hardware comes
to execute a frame (42_decoder.md R141; log 14). -/
def State.placeInstruction (s : State) (bytes : Bytes) : State :=
  if isCommandCode (byteAt bytes 0) then s.issueFirst (portOfCommand (byteAt bytes 0)) bytes
  else
    (s.setDec 0 { s.dec 0 with everReset := true, phase := .streaming, found := true, residual := [], err := none }).issueFirst
      (.dec 0) (encodePacket 0x21#8 bytes)

end Sys2Proof.Machine
end

