-- ==== Sys2Proof/Machine/Step.lean ====
section
/-! DEFINITION. One step: one command of the host, performed whole (00_scope.md R2, 20_memory.md R56). -/

namespace Sys2Proof.Machine

/-- Perform the oldest command issued.  With nothing issued the block waits, and its state stays as it is (log 4). -/
def step (s : State) : Host.Outcome State Fault Refusal :=
  match fetchCommand s with
  | none => .next s
  | some (.ok i, t) => exec i t
  | some (.error _, t) => .next t.rejectPacket

/-- `s` with an opcode-table word's instruction placed so that the very next step runs it (log 14). -/
def State.withFetchWord (s : State) (nbits w : Nat) : State := s.placeInstruction (tableBytes nbits w)

end Sys2Proof.Machine
end

