-- ==== Sys2Proof/Safety.lean ====
section
/-! DEFINITION. The terms that claims about the block use: the collaborator laws a claim may assume (00_scope.md R8), the invariant of the
registers between commands (10_state.md R37), a final run (70_reset_and_hazards.md R231), and runs of several commands with given
collaborators. -/

namespace Sys2Proof.Machine

/-- `LAW_INVERSE` (00_scope.md R8). -/
def LawInverse (c : Collaborators) : Prop :=
  ∀ b : Bytes, b.length ≤ maxBlock → c.decompressFn (c.compressFn b) = some b

/-- `LAW_CRC` (00_scope.md R8), with the definition of 40_mask.md R102. -/
def LawCrc (c : Collaborators) : Prop := ∀ b : Bytes, c.crc32c b = crc32cStandard b

/-- None of the `n` compressor calls from draw `first` on fails (41_encoder.md R113, R121, R123). -/
def CallsSucceed (c : Collaborators) (first n : Nat) : Prop :=
  ∀ j < n, (c.compressMayFail && c.compressDraw (first + j)) = false

/-- The compressor calls of a run of deliveries: one for each block of each (41_encoder.md R111, R112). -/
def callCount (chunks : List Bytes) : Nat := (chunks.map fun chunk => (splitBlocks chunk).length).sum

/-- An encoder's registers between commands: its output begins with `ID_FRAME` (41_encoder.md R121), and `err` holds a kind, which
is `CompressionFailure`, exactly in `Failed` (10_state.md R24, R39, R46). -/
structure EncUnit.Inv (u : EncUnit) : Prop where
  startsWithIdentifier : u.everReset = true → idFrame <+: u.out
  errInFailed : u.err = if u.phase = .failed then some .compressionFailure else none
  untouchedBeforeReset : u.everReset = false → u = { EncUnit.neverReset with protocolFault := u.protocolFault }

/-- A decoder's registers between commands (10_state.md R30, R32, R37, 42_decoder.md R162, R163, 20_memory.md R61). -/
structure DecUnit.Inv (c : Collaborators) (u : DecUnit) : Prop where
  errInFailed : u.err ≠ none ↔ u.phase = .failed
  errIsDecoders : u.err ≠ some .compressionFailure
  livePhase : u.phase.isTerminal = false → u.phase = nextPhase u.found u.residual
  closedIsDrained : u.phase = .closed → u.residual = []
  residualIncomplete : complete u.residual 0 = false
  residualStartsIdentifier : u.found = false → u.residual ≠ [] → byteAt u.residual 0 = 0xFF#8
  noOutputBeforeIdentifier : u.found = false → u.out = []
  residualFits : exceedsCap c u.residual = false
  untouchedBeforeReset : u.everReset = false → u = { DecUnit.neverReset with protocolFault := u.protocolFault }

/-- The invariant every step keeps: the banks are in canonical form, every unit's registers agree, and no transient value of a delivery is
left over (10_state.md R43). -/
structure State.Inv (c : Collaborators) (s : State) : Prop where
  encsCanonical : bankWf EncUnit.neverReset s.encs = true
  decsCanonical : bankWf DecUnit.neverReset s.decs = true
  encUnits : ∀ k, (s.enc k).Inv
  decUnits : ∀ k, (s.dec k).Inv c
  noDeliveryOpen : s.work = Work.idle

/-- What a frame contributes to its delivery by the rules of its class: whether it is a valid identifier, the tuples it records, or its error
(R147-R153).  A command is no frame and contributes nothing. -/
def frameContribution : Instr → Except ErrorKind (Bool × List DataTuple)
  | .frameStreamId p => if p = magic then .ok (true, []) else .error .invalidStreamIdentifier
  | .frameCompressed p =>
    if p.length < 4 then .error .shortDataFrame else .ok (false, [⟨.compressed, checksumField p, blockField p⟩])
  | .frameUncompressed p =>
    if p.length < 4 then .error .shortDataFrame else .ok (false, [⟨.uncompressed, checksumField p, blockField p⟩])
  | .frameUnskippable _ _ => .error .unskippableFrame
  | .frameSkippable _ _ => .ok (false, [])
  | .framePadding _ => .ok (false, [])
  | .encReset _ | .encWrite _ | .encEnd _ | .decReset _ | .decWrite _ | .decEnd _ | .mask _ => .ok (false, [])

/-- Whether a valid identifier is among the frames. -/
def seesIdentifier (frames : List Instr) : Bool :=
  frames.any fun i => match frameContribution i with
    | .ok (ident, _) => ident
    | .error _ => false

/-- The batch that the frames record, in frame order (10_state.md R36). -/
def batchOf (frames : List Instr) : List DataTuple :=
  frames.flatMap fun i => match frameContribution i with
    | .ok (_, tuples) => tuples
    | .error _ => []

/-- A stretch of input that is whole frames, none of which has an error: what the frame loop handles without raising. -/
def GoodFrames (frames : List Instr) : Prop :=
  ∀ i ∈ frames, i.isFrame = true ∧ i.encodable = true ∧ ∃ v, frameContribution i = .ok v

/-- The stream-identifier check of 42_decoder.md R143 does not fail. -/
def IdentifierInPlace (found : Bool) (data : Bytes) : Prop := found = true ∨ data = [] ∨ byteAt data 0 = 0xFF#8

/-- Encoder `k` has the command and may take a write or an end: it has been reset and is `Open` (R23, R222). -/
abbrev LiveEnc (s : State) (k : Nat) : Prop :=
  s.port = .enc k ∧ (s.enc k).everReset = true ∧ (s.enc k).phase = .opened

/-- Decoder `k` has the command and may take a write or an end: it has been reset and its phase is not terminal (R28, R222). -/
abbrev LiveDec (s : State) (k : Nat) : Prop :=
  s.port = .dec k ∧ (s.dec k).everReset = true ∧ (s.dec k).phase.isTerminal = false

/-- The frame of a command on port `p`: no other unit instance, no queued packet and not the port itself changes (R22, R202). -/
structure OnlyUnit (p : Port) (s t : State) : Prop where
  encs : ∀ j, p ≠ .enc j → t.enc j = s.enc j
  decs : ∀ j, p ≠ .dec j → t.dec j = s.dec j
  maskUnit : p ≠ .mask → t.maskUnit = s.maskUnit
  port : t.port = s.port
  pending : t.pending = s.pending

/-- Port `p` gave the one response `r`. -/
abbrev Answered (p : Port) (r : Response) (s t : State) : Prop := t.responses = s.responses ++ [(p, r)]

/-- The unit at a port holds the same in two states. -/
def SameUnit (p : Port) (s t : State) : Prop :=
  match p with
  | .enc k => s.enc k = t.enc k
  | .dec k => s.dec k = t.dec k
  | .mask => s.maskUnit = t.maskUnit

/-- The bytes a response carries (R42). -/
def Response.bytes : Response → Bytes
  | .ok b => b
  | .okMask _ | .err _ | .dropped | .refused => []

/-- The packets 30_encoding.md R84 lists for the unit at a port. -/
def LegalPacket (p : Port) (packet : Bytes) : Prop :=
  match p with
  | .enc _ => packet = encodePacket 0x10#8 [] ∨ packet = encodePacket 0x12#8 []
      ∨ ∃ chunk : Bytes, chunk.length < 2 ^ 32 ∧ packet = encodePacket 0x11#8 chunk
  | .dec _ => packet = encodePacket 0x20#8 [0x00#8] ∨ packet = encodePacket 0x20#8 [0x01#8]
      ∨ packet = encodePacket 0x22#8 [] ∨ ∃ chunk : Bytes, chunk.length < 2 ^ 32 ∧ packet = encodePacket 0x21#8 chunk
  | .mask => ∃ data : Bytes, data.length < 2 ^ 32 ∧ packet = encodePacket 0x30#8 data

/-- The host has used the unit at a port: it has reset it, or the unit has answered a command.  A unit that log 1 has reset for the host counts. -/
def State.used (s : State) (p : Port) : Prop :=
  (match p with
    | .enc k => (s.enc k).everReset = true
    | .dec k => (s.dec k).everReset = true
    | .mask => False)
  ∨ ∃ r, (p, r) ∈ s.responses

/-- A final run (70_reset_and_hazards.md R231): the host has issued its last command, every unit it used is `Closed` (so no unit that was reset is left
in `NotStarted`, `AwaitingIdentifier`, `Streaming` or `Open`), no unit is in `Failed`, and no model-level fault bit is set. -/
def State.final (s : State) : Prop :=
  s.pending = []
  ∧ (∀ k, s.used (.enc k) → (s.enc k).phase = .closed)
  ∧ (∀ k, s.used (.dec k) → (s.dec k).phase = .closed)
  ∧ (∀ k, (s.enc k).phase ≠ .failed) ∧ (∀ k, (s.dec k).phase ≠ .failed)
  ∧ (∀ k, (s.enc k).protocolFault = false) ∧ (∀ k, (s.dec k).protocolFault = false)
  ∧ (∀ k, (s.dec k).capacityFault = false) ∧ s.maskUnit.protocolFault = false

/-- The meaning of an instruction with collaborators `c`; `exec` is this with `Config.platform`. -/
def execWith (c : Collaborators) (i : Instr) (s : State) : Host.Outcome State Fault Refusal :=
  match i with
  | .encWrite chunk => encWrite c chunk s
  | .decWrite chunk => decWrite c chunk s
  | .mask data => maskCommand c data s
  | .frameStreamId _ | .frameCompressed _ | .frameUncompressed _ | .frameUnskippable _ _ | .frameSkippable _ _
  | .framePadding _ | .encReset _ | .encEnd _ | .decReset _ | .decEnd _ => exec i s

/-- Perform commands one after another on port `p`. -/
def runOn (c : Collaborators) (p : Port) : List Instr → State → Host.Outcome State Fault Refusal
  | [], s => .next s
  | i :: rest, s =>
    match execWith c i (s.onPort p) with
    | .next t => runOn c p rest t
    | .fault r => .fault r
    | .refused r => .refused r

/-- A whole encoder run: reset, one `ENC_WRITE` per delivery, end. -/
def encoderScript (chunks : List Bytes) : List Instr := .encReset [] :: chunks.map .encWrite ++ [.encEnd []]

/-- A whole decoder run: reset with `verify`, one `DEC_WRITE` per delivery, end. -/
def decoderScript (verify : Bool) (pieces : List Bytes) : List Instr :=
  .decReset [if verify then 0x01#8 else 0x00#8] :: pieces.map .decWrite ++ [.decEnd []]

end Sys2Proof.Machine
end

