-- ==== Sys2Proof/Certificates/Slice0/Obligations.lean ====
section
/-! DEFINITION. The statements for the provers.  Each docstring names the rule of spec/ it formalises; a clause that rests on one of the
spec's own decisions (D<n>) or on a choice of the model (log <n>) says so. -/

open Sys2Proof Sys2Proof.Machine

/-! ### Encodings -/

/-- Words written out from 30_encoding.md R70, R75 and R84 decode to the instructions they stand for. -/
def Obligations.WrittenWordsDecode : Prop :=
  decodePacket [0x10#8, 0x00#8, 0x00#8, 0x00#8, 0x00#8] = .ok (.encReset [])
  ∧ decodePacket [0x11#8, 0x03#8, 0x00#8, 0x00#8, 0x00#8, 0x61#8, 0x62#8, 0x63#8] = .ok (.encWrite [0x61#8, 0x62#8, 0x63#8])
  ∧ decodePacket [0x12#8, 0x00#8, 0x00#8, 0x00#8, 0x00#8] = .ok (.encEnd [])
  ∧ decodePacket [0x20#8, 0x01#8, 0x00#8, 0x00#8, 0x00#8, 0x01#8] = .ok (.decReset [0x01#8])
  ∧ decodePacket [0x22#8, 0x00#8, 0x00#8, 0x00#8, 0x00#8] = .ok (.decEnd [])
  ∧ decodePacket [0x30#8, 0x01#8, 0x00#8, 0x00#8, 0x00#8, 0x61#8] = .ok (.mask [0x61#8])
  ∧ decodeFrame idFrame = .ok (.frameStreamId magic, [])
  ∧ decodeFrame [0xFE#8, 0x02#8, 0x00#8, 0x00#8, 0xAA#8, 0xBB#8, 0x77#8] = .ok (.framePadding [0xAA#8, 0xBB#8], [0x77#8])
  ∧ decodeFrame [0x10#8, 0x00#8, 0x00#8, 0x00#8] = .ok (.frameUnskippable 0x10#8 [], [])

/-- Decode and encode agree for every frame, at every payload and code its encoding admits, whatever bytes follow (30_encoding.md R70-R73,
R77, R80). -/
def Obligations.FrameDecodeOfEncode : Prop :=
  ∀ (i : Instr) (rest : Bytes), i.isFrame = true → i.encodable = true → decodeFrame (encode i ++ rest) = .ok (i, rest)

/-- Decode and encode agree for every command, at every operand the packet can carry (30_encoding.md R84). -/
def Obligations.PacketDecodeOfEncode : Prop :=
  ∀ i : Instr, i.isFrame = false → i.encodable = true → decodePacket (encode i) = .ok i

/-- Each encoding has one meaning: bytes that decode are the encoding of what they decode to, and what they decode to is encodable
(30_encoding.md R70, R77, R84, R87). -/
def Obligations.DecodedBytesAreTheEncoding : Prop :=
  (∀ (data rest : Bytes) (i : Instr), decodeFrame data = .ok (i, rest) →
    data = encode i ++ rest ∧ i.isFrame = true ∧ i.encodable = true)
  ∧ (∀ (packet : Bytes) (i : Instr), decodePacket packet = .ok i →
    packet = encode i ∧ i.isFrame = false ∧ i.encodable = true)

/-- The frame-type map, range by range (30_encoding.md R77; that the ranges cover all 256 codes is the spec's own derivation). -/
def Obligations.TypeCodeRanges : Prop :=
  ∀ t : Byte,
    (t.toNat = 0x00 → classify t = .compressed) ∧ (t.toNat = 0x01 → classify t = .uncompressed)
    ∧ (0x02 ≤ t.toNat → t.toNat ≤ 0x7F → classify t = .unskippable t)
    ∧ (0x80 ≤ t.toNat → t.toNat ≤ 0xFD → classify t = .skippable t)
    ∧ (t.toNat = 0xFE → classify t = .padding) ∧ (t.toNat = 0xFF → classify t = .identifier)

/-- Little-endian fields (00_scope.md R11). -/
def Obligations.LittleEndianFields : Prop :=
  (∀ (s : Bytes) (i : Nat) (h : i + 3 ≤ s.length),
    le24 s i = s[i].toNat + 256 * s[i + 1].toNat + 65536 * s[i + 2].toNat)
  ∧ (∀ (s : Bytes) (i : Nat) (h : i + 4 ≤ s.length),
    (le32 s i).toNat = s[i].toNat + 2 ^ 8 * s[i + 1].toNat + 2 ^ 16 * s[i + 2].toNat + 2 ^ 24 * s[i + 3].toNat)
  ∧ (∀ n : Nat, n < 2 ^ 24 → pack24 n =
    [(BitVec.ofNat 24 n).extractLsb' 0 8, (BitVec.ofNat 24 n).extractLsb' 8 8, (BitVec.ofNat 24 n).extractLsb' 16 8])
  ∧ (∀ v : Word, pack32 v = [v.extractLsb' 0 8, v.extractLsb' 8 8, v.extractLsb' 16 8, v.extractLsb' 24 8])

/-- Packing and reading are inverse in both directions, at any offset (00_scope.md R11, 20_memory.md R53, R54, 30_encoding.md R74). -/
def Obligations.PackingRoundTrips : Prop :=
  (∀ (before after : Bytes) (n : Nat), n < 2 ^ 24 → le24 (before ++ pack24 n ++ after) before.length = n)
  ∧ (∀ (before after : Bytes) (v : Word), le32 (before ++ pack32 v ++ after) before.length = v)
  ∧ (∀ (s : Bytes) (i : Nat), i + 3 ≤ s.length → pack24 (le24 s i) = memRead s i 3)
  ∧ (∀ (s : Bytes) (i : Nat), i + 4 ≤ s.length → pack32 (le32 s i) = memRead s i 4)

/-! ### MASK -/

/-- The masking transform as the formula of 40_mask.md R101, over natural numbers with its truncations. -/
def Obligations.MaskTransformFormula : Prop :=
  ∀ c : Word, (maskTransform c).toNat = (((c.toNat >>> 15) ||| (c.toNat <<< 17)) % 2 ^ 32 + 0xA282EAD8) % 2 ^ 32

/-- `T` is a bijection with the inverse of 40_mask.md R105, so masks agree exactly when CRCs do; R105's values; and the rotation bit by bit, and the
late truncation of R101 (all the spec's own derivations). -/
def Obligations.MaskTransformBijective : Prop :=
  (∀ c : Word, maskInverse (maskTransform c) = c) ∧ (∀ m : Word, maskTransform (maskInverse m) = m)
  ∧ (∀ (c : Collaborators) (a b : Bytes), maskOf c a = maskOf c b ↔ c.crc32c a = c.crc32c b)
  ∧ (∀ c : Word, (maskTransform c).toNat = (((c.toNat >>> 15) ||| (c.toNat <<< 17)) + 0xA282EAD8) % 2 ^ 32)
  ∧ (∀ c : Word, rotr32 c 15 = rotl32 c 17)
  ∧ (∀ (c : Word) (i : Nat), i < 32 → (rotr32 c 15).getLsbD ((i + 17) % 32) = c.getLsbD i)
  ∧ maskTransform 0x00000000#32 = 0xA282EAD8#32 ∧ maskTransform 0xFFFFFFFF#32 = 0xA282EAD7#32
  ∧ maskTransform 0x00000001#32 = 0xA284EAD8#32 ∧ maskTransform 0x00008000#32 = 0xA282EAD9#32
  ∧ maskTransform 0x8A942EBE#32 = 0x00000000#32

/-- `MASK` completes in every state whose port is the mask unit's, changes nothing but the list of responses, and answers a function of the
data alone, the masked CRC (10_state.md R40). -/
def Obligations.MaskAnswersAndChangesNothing : Prop :=
  ∀ (data : Bytes) (s : State), s.port = .mask →
    exec (.mask data) s = .next { s with
      responses := s.responses ++ [(.mask, .okMask (maskTransform (Config.crc32c data)))] }

/-! ### ENC -/

/-- `ENC_RESET` completes on every encoder in every phase, reset before or not: the registers hold their reset values and the reply carries
the identifier frame (70_reset_and_hazards.md R220, the spec's decisions D4 and D16). -/
def Obligations.EncResetStartsStream : Prop :=
  ∀ (k : Nat) (s : State), s.port = .enc k →
    ∃ t, exec (.encReset []) s = .next t
      ∧ t.enc k = { everReset := true, phase := .opened, err := none, out := idFrame, protocolFault := false }
      ∧ Answered (.enc k) (.ok idFrame) s t ∧ OnlyUnit (.enc k) s t ∧ t.work = s.work ∧ t.draws = s.draws

/-- `ENC_WRITE` completes on every live encoder for every chunk: block `j` is the slice at offset `65536 * j` (41_encoder.md R111, R112), and
either one compressor call fails and the encoder is `Failed` with nothing emitted (R118), or every call succeeds and the frames of the blocks, each
made of the block and the compressor's answer to it (R113, R116), are appended in block order (R117).  Which calls fail is free (log 5). -/
def Obligations.EncWriteAnswers : Prop :=
  ∀ (k : Nat) (chunk frames : Bytes) (n : Nat) (fails : Bool) (s : State), LiveEnc s k →
    n = (chunk.length + 65535) / 65536 →
    frames = ((List.range n).map fun j => dataFrame Config.platform ((chunk.drop (65536 * j)).take 65536)
      (Config.compressFn ((chunk.drop (65536 * j)).take 65536))).flatten →
    fails = (List.range n).any (fun j => Config.compressMayFail && Config.compressDraw (s.draws + j)) →
    ∃ t, exec (.encWrite chunk) s = .next t
      ∧ t.enc k = (if fails then { s.enc k with phase := .failed, err := some .compressionFailure }
          else { s.enc k with out := (s.enc k).out ++ frames })
      ∧ Answered (.enc k) (if fails then .err .compressionFailure else .ok frames) s t
      ∧ OnlyUnit (.enc k) s t ∧ t.work = s.work ∧ t.draws = s.draws + n

/-- Block splitting (41_encoder.md R112): the number of blocks, each block's bytes, their sizes, and that they are the delivery in order. -/
def Obligations.BlocksOfADelivery : Prop :=
  ∀ chunk : Bytes,
    (splitBlocks chunk).length = (chunk.length + 65535) / 65536
    ∧ (splitBlocks chunk).flatten = chunk
    ∧ ∀ (k : Nat) (h : k < (splitBlocks chunk).length),
        (splitBlocks chunk)[k] = memRead chunk (k * 65536) (min ((k + 1) * 65536) chunk.length - k * 65536)
        ∧ (k + 1 < (splitBlocks chunk).length → (splitBlocks chunk)[k].length = 65536)
        ∧ (k + 1 = (splitBlocks chunk).length →
            (splitBlocks chunk)[k].length = chunk.length - k * 65536
            ∧ 1 ≤ (splitBlocks chunk)[k].length ∧ (splitBlocks chunk)[k].length ≤ 65536)

/-- Format selection (41_encoder.md R114): the type and the block bytes, on both sides of the threshold. -/
def Obligations.FormatSelection : Prop :=
  ∀ block compressed : Bytes,
    (block.length - block.length / 8 ≤ compressed.length → selectFormat block compressed = (0x01#8, block))
    ∧ (compressed.length < block.length - block.length / 8 → selectFormat block compressed = (0x00#8, compressed))

/-- Frame assembly: type, length, checksum of the original block, block bytes; the length fits 24 bits (41_encoder.md R115, R116). -/
def Obligations.FrameAssembly : Prop :=
  ∀ (c : Collaborators) (block compressed : Bytes), block.length ≤ 65536 →
    dataFrame c block compressed =
      [(selectFormat block compressed).1] ++ pack24 ((selectFormat block compressed).2.length + 4)
        ++ pack32 (maskTransform (c.crc32c block)) ++ (selectFormat block compressed).2
    ∧ (selectFormat block compressed).2.length + 4 < 2 ^ 24

/-- The decoder reads an encoder's frame back: its class, the checksum of the original block, and the block bytes chosen, whatever follows
(30_encoding.md R73, R74, 41_encoder.md R115, R116). -/
def Obligations.EncodedFrameIsReadBack : Prop :=
  ∀ (c : Collaborators) (block compressed rest : Bytes), block.length ≤ 65536 →
    ∃ payload, decodeFrame (dataFrame c block compressed ++ rest) =
        .ok (if (selectFormat block compressed).1 = 0x01#8 then .frameUncompressed payload else .frameCompressed payload, rest)
      ∧ 4 ≤ payload.length ∧ checksumField payload = maskOf c block
      ∧ blockField payload = (selectFormat block compressed).2

/-- The sizes of the frames an encoder emits (30_encoding.md R82), and that the threshold of R114 selects the same in real division (90_conflicts.md
C8): the spec's own derivations. -/
def Obligations.EncodedFrameSizes : Prop :=
  ∀ (c : Collaborators) (block compressed : Bytes), 1 ≤ block.length → block.length ≤ 65536 →
    ((byteAt (dataFrame c block compressed) 0 = 0x01#8
      ∧ 5 ≤ payloadLength (dataFrame c block compressed) 0 ∧ payloadLength (dataFrame c block compressed) 0 ≤ 65540
      ∧ 7 * block.length ≤ 8 * compressed.length)
    ∨ (byteAt (dataFrame c block compressed) 0 = 0x00#8
      ∧ 4 ≤ payloadLength (dataFrame c block compressed) 0 ∧ payloadLength (dataFrame c block compressed) 0 ≤ 57347
      ∧ 8 * compressed.length < 7 * block.length))

/-- A failing compressor call fails the delivery: nothing of it is emitted, what earlier deliveries emitted stays (41_encoder.md R118). -/
def Obligations.CompressionFailureEmitsNothing : Prop :=
  ∀ (c : Collaborators) (k : Nat) (chunk : Bytes) (s : State), LiveEnc s k →
    (∃ j < (splitBlocks chunk).length, (c.compressMayFail && c.compressDraw (s.draws + j)) = true) →
    ∃ t, encWrite c chunk s = .next t
      ∧ t.enc k = { s.enc k with phase := .failed, err := some .compressionFailure }
      ∧ (t.enc k).out = (s.enc k).out
      ∧ Answered (.enc k) (.err .compressionFailure) s t ∧ OnlyUnit (.enc k) s t ∧ t.work = s.work

/-- `ENC_END` completes on every live encoder, emitting nothing; it is dropped in `Failed` and refused in `Closed`; and straight after
reset it leaves the encoding of the empty input (41_encoder.md R120).  The refusal in `Closed` is the spec's decision D6; the hexadecimal spelling of
`ID_FRAME` rests on ASCII, which 30_encoding.md R75 supplies from general knowledge (log 13, PRESUMED). -/
def Obligations.EncEndCloses : Prop :=
  (∀ (k : Nat) (s : State), LiveEnc s k →
    ∃ t, exec (.encEnd []) s = .next t ∧ t.enc k = { s.enc k with phase := .closed }
      ∧ Answered (.enc k) (.ok []) s t ∧ OnlyUnit (.enc k) s t ∧ t.work = s.work ∧ t.draws = s.draws)
  ∧ (∀ (k : Nat) (s : State), s.port = .enc k → (s.enc k).everReset = true → (s.enc k).phase = .failed →
    exec (.encEnd []) s = .next { s with responses := s.responses ++ [(.enc k, .dropped)] })
  ∧ (∀ (k : Nat) (s : State), s.port = .enc k → (s.enc k).everReset = true → (s.enc k).phase = .closed →
    ∃ t, exec (.encEnd []) s = .next t ∧ t.enc k = { s.enc k with protocolFault := true }
      ∧ Answered (.enc k) .refused s t ∧ OnlyUnit (.enc k) s t ∧ t.work = s.work)
  ∧ (∀ (c : Collaborators) (k : Nat) (s : State), ∃ t, runOn c (.enc k) [.encReset [], .encEnd []] s = .next t
      ∧ (t.enc k).out = [0xFF#8, 0x06#8, 0x00#8, 0x00#8, 0x73#8, 0x4E#8, 0x61#8, 0x50#8, 0x70#8, 0x59#8]
      ∧ (t.enc k).phase = .closed)
  ∧ encode (.encEnd []) = [0x12#8, 0x00#8, 0x00#8, 0x00#8, 0x00#8]

/-- `ENC_WRITE` outside `Open`: dropped without effect in `Failed`, refused with `protocol_fault` in `Closed` (41_encoder.md R119; the second is
the spec's decision D6). -/
def Obligations.EncWriteOutsideOpen : Prop :=
  ∀ (k : Nat) (chunk : Bytes) (s : State), s.port = .enc k → (s.enc k).everReset = true →
    ((s.enc k).phase = .failed →
      exec (.encWrite chunk) s = .next { s with responses := s.responses ++ [(.enc k, .dropped)] })
    ∧ ((s.enc k).phase = .closed →
      ∃ t, exec (.encWrite chunk) s = .next t ∧ t.enc k = { s.enc k with protocolFault := true }
        ∧ Answered (.enc k) .refused s t ∧ OnlyUnit (.enc k) s t ∧ t.work = s.work ∧ t.draws = s.draws)

/-- The encoder's whole output: the identifier frame once, first, then the frame of every block of every delivery in order, made of the block and the
compressor's answer to it, in a run none of whose compressor calls fails (41_encoder.md R121, the spec's own derivation). -/
def Obligations.EncoderOutputLaw : Prop :=
  ∀ (c : Collaborators) (k : Nat) (chunks : List Bytes) (s : State), CallsSucceed c s.draws (callCount chunks) →
    ∃ t, runOn c (.enc k) (encoderScript chunks) s = .next t ∧ (t.enc k).phase = .closed
      ∧ (t.enc k).out = idFrame ++ (chunks.map fun chunk => ((splitBlocks chunk).map fun block => dataFrame c block (c.compressFn block)).flatten).flatten

/-! ### Frames -/

/-- `FRAME_STREAM_ID`: a payload equal to `MAGIC` sets `found'` and advances past 10 bytes, any other is `InvalidStreamIdentifier`; and this is
the source's comparison of the 10 leading bytes (42_decoder.md R147; the last is the spec's own derivation, 90_conflicts.md C10). -/
def Obligations.StreamIdentifierFrame : Prop :=
  (∀ s : State, exec (.frameStreamId magic) s = .next { s with work := { s.work with found := true, cur := s.work.cur + 10 } })
  ∧ (∀ (p : Bytes) (s : State), p ≠ magic →
    ∃ t, exec (.frameStreamId p) s = .next t
      ∧ t.dec s.work.inst = { s.dec s.work.inst with phase := .failed, err := some .invalidStreamIdentifier }
      ∧ Answered (.dec s.work.inst) (.err .invalidStreamIdentifier) s t ∧ OnlyUnit (.dec s.work.inst) s t
      ∧ t.work = Work.idle ∧ t.draws = s.draws)
  ∧ (∀ p : Bytes, p.length < 2 ^ 24 → (encode (.frameStreamId p) = idFrame ↔ p = magic))

/-- `FRAME_COMPRESSED` and `FRAME_UNCOMPRESSED` with room for a checksum: the tuple (type, first four payload bytes, the rest) joins the batch,
`cur` advances, and nothing else changes (42_decoder.md R148, R149, R154). -/
def Obligations.DataFramesAreRecorded : Prop :=
  ∀ (p : Bytes) (s : State), 4 ≤ p.length →
    exec (.frameCompressed p) s = .next { s with work := { s.work with
      cur := s.work.cur + 4 + p.length,
      batch := s.work.batch ++ [{ kind := .compressed, checksumMask := le32 p 0, block := p.drop 4 }] } }
    ∧ exec (.frameUncompressed p) s = .next { s with work := { s.work with
      cur := s.work.cur + 4 + p.length,
      batch := s.work.batch ++ [{ kind := .uncompressed, checksumMask := le32 p 0, block := p.drop 4 }] } }

/-- A data frame with no room for its checksum raises `ShortDataFrame` (42_decoder.md R150, the spec's decision D8). -/
def Obligations.ShortDataFramesAreRejected : Prop :=
  ∀ (i : Instr) (p : Bytes) (s : State), p.length < 4 → i = .frameCompressed p ∨ i = .frameUncompressed p →
    ∃ t, exec i s = .next t
      ∧ t.dec s.work.inst = { s.dec s.work.inst with phase := .failed, err := some .shortDataFrame }
      ∧ Answered (.dec s.work.inst) (.err .shortDataFrame) s t ∧ OnlyUnit (.dec s.work.inst) s t
      ∧ t.work = Work.idle ∧ t.draws = s.draws

/-- `FRAME_PADDING` and `FRAME_SKIPPABLE`, whatever the code and payload: the cursor passes the frame, nothing is recorded, emitted or
changed (42_decoder.md R151, R152). -/
def Obligations.PaddingAndSkippableAreDiscarded : Prop :=
  ∀ (code : Byte) (p : Bytes) (s : State),
    exec (.framePadding p) s = .next { s with work := { s.work with cur := s.work.cur + 4 + p.length } }
    ∧ exec (.frameSkippable code p) s = .next { s with work := { s.work with cur := s.work.cur + 4 + p.length } }

/-- `FRAME_UNSKIPPABLE`, whatever the code and payload: `UnskippableFrame`, and no output of the decoder changes (42_decoder.md R153, 30_encoding.md
R78). -/
def Obligations.UnskippableFramesAreRejected : Prop :=
  ∀ (code : Byte) (p : Bytes) (s : State),
    ∃ t, exec (.frameUnskippable code p) s = .next t
      ∧ t.dec s.work.inst = { s.dec s.work.inst with phase := .failed, err := some .unskippableFrame }
      ∧ (t.dec s.work.inst).out = (s.dec s.work.inst).out
      ∧ Answered (.dec s.work.inst) (.err .unskippableFrame) s t ∧ OnlyUnit (.dec s.work.inst) s t
      ∧ t.work = Work.idle ∧ t.draws = s.draws

/-- Any frame handled without error (no response is given) advances `cur` by its whole length, and writes no register of any unit
(42_decoder.md R154). -/
def Obligations.FrameAdvancesPastItself : Prop :=
  ∀ (i : Instr) (s t : State), i.isFrame = true → exec i s = .next t → t.responses = s.responses →
    t.work.cur = s.work.cur + (encode i).length
    ∧ t = { s with work := { s.work with cur := t.work.cur, batch := t.work.batch, found := t.work.found } }

/-- The frame loop runs the instruction that the frame decoder reads at `cur`, selected by the type byte alone (42_decoder.md R145, R146,
30_encoding.md R76). -/
def Obligations.FrameLoopRunsDecodedFrame : Prop :=
  ∀ (s : State) (i : Instr) (rest : Bytes) (n : Nat), decodeFrame (s.work.data.drop s.work.cur) = .ok (i, rest) →
    i = frameInstr (byteAt s.work.data s.work.cur)
      (memRead s.work.data (s.work.cur + 4) (le24 s.work.data (s.work.cur + 1)))
    ∧ runFrame s = exec i s
    ∧ (s.work.active = true → ∀ t, exec i s = .next t → runFrames (n + 1) s = runFrames n t)

/-- The frame loop's condition, that it goes on while a complete frame stands at `cur`, and that it ends at the first incomplete frame, so that
no frame after it is examined (42_decoder.md R144). -/
def Obligations.FrameLoopStopsAtIncompleteFrame : Prop :=
  (∀ (data : Bytes) (cur : Nat),
    complete data cur = true ↔ 4 ≤ data.length - cur ∧ 4 + le24 data (cur + 1) ≤ data.length - cur)
  ∧ (∀ (n : Nat) (s t : State), s.work.active = true → complete s.work.data s.work.cur = true → runFrame s = .next t →
    runFrames (n + 1) s = runFrames n t)
  ∧ ∀ (n : Nat) (s : State), complete s.work.data s.work.cur = false → runFrames n s = .next s

/-! ### DEC -/

/-- `DEC_RESET` completes on every decoder in every phase, reset before or not, with either operand: the registers hold their reset values
(70_reset_and_hazards.md R221, the spec's decision D16). -/
def Obligations.DecResetStartsStream : Prop :=
  ∀ (k : Nat) (verify : Bool) (s : State), s.port = .dec k →
    ∃ t, exec (.decReset [if verify then 0x01#8 else 0x00#8]) s = .next t
      ∧ t.dec k = { everReset := true, phase := .notStarted, found := false, residual := [], verify := verify,
                    err := none, out := [], protocolFault := false, capacityFault := false }
      ∧ Answered (.dec k) (.ok []) s t ∧ OnlyUnit (.dec k) s t ∧ t.work = s.work ∧ t.draws = s.draws

/-- While no identifier has been found, a first byte that is not the identifier's fails the delivery, whatever its length; the check is not made
on empty data, after an identifier, or when the byte is `0xFF` (42_decoder.md R143). -/
def Obligations.MissingIdentifierFails : Prop :=
  ∀ (k : Nat) (chunk : Bytes) (s : State), LiveDec s k →
    ((s.dec k).found = false → (s.dec k).residual ++ chunk ≠ [] → byteAt ((s.dec k).residual ++ chunk) 0 ≠ 0xFF#8 →
      ∃ t, exec (.decWrite chunk) s = .next t
        ∧ t.dec k = { s.dec k with phase := .failed, err := some .missingStreamIdentifier }
        ∧ Answered (.dec k) (.err .missingStreamIdentifier) s t ∧ OnlyUnit (.dec k) s t
        ∧ t.work = Work.idle ∧ t.draws = s.draws)
    ∧ ((s.dec k).found = true ∨ (s.dec k).residual ++ chunk = [] ∨ byteAt ((s.dec k).residual ++ chunk) 0 = 0xFF#8 →
      ∃ t r, exec (.decWrite chunk) s = .next t ∧ Answered (.dec k) r s t ∧ r ≠ .err .missingStreamIdentifier)

/-- `DEC_WRITE` completes on every live decoder between frames that checks no checksums, for a chunk of uncompressed data frames whatever
their checksums and blocks: the blocks are emitted in order and nothing else changes (42_decoder.md R141, R149, R156-R158). -/
def Obligations.VerbatimDelivery : Prop :=
  ∀ (k : Nat) (blocks : List (Word × Bytes)) (s : State), LiveDec s k → (s.dec k).found = true → (s.dec k).verify = false →
    (s.dec k).residual = [] → (s.dec k).phase = .streaming → (∀ b ∈ blocks, b.2.length + 4 < 2 ^ 24) →
    ∃ t, exec (.decWrite ((blocks.map fun b => encode (.frameUncompressed (pack32 b.1 ++ b.2))).flatten)) s = .next t
      ∧ t.dec k = { s.dec k with out := (s.dec k).out ++ (blocks.map fun b => b.2).flatten }
      ∧ Answered (.dec k) (.ok (blocks.map fun b => b.2).flatten) s t
      ∧ OnlyUnit (.dec k) s t ∧ t.work = Work.idle ∧ t.draws = s.draws

/-- A delivery of good frames and an incomplete tail, all of whose tuples decode and whose tail fits: the decoded blocks are emitted in order,
the tail is the residual, `found` and the phase follow (42_decoder.md R141, R154-R159). -/
def Obligations.DeliveryCommits : Prop :=
  ∀ (c : Collaborators) (k : Nat) (chunk tail : Bytes) (frames : List Instr) (s : State), LiveDec s k →
    (s.dec k).residual ++ chunk = (frames.map encode).flatten ++ tail → GoodFrames frames → complete tail 0 = false →
    IdentifierInPlace (s.dec k).found ((s.dec k).residual ++ chunk) →
    (∀ x ∈ batchOf frames, ∃ d, decodeTuple c (s.dec k).verify x = .ok d) → exceedsCap c tail = false →
    ∃ t, decWrite c chunk s = .next t
      ∧ t.dec k = { s.dec k with
          residual := tail, found := (s.dec k).found || seesIdentifier frames,
          out := (s.dec k).out ++ decodedBytes c (s.dec k).verify (batchOf frames),
          phase := if (s.dec k).found || seesIdentifier frames then .streaming
            else if tail = [] then .notStarted else .awaitingIdentifier }
      ∧ Answered (.dec k) (.ok (decodedBytes c (s.dec k).verify (batchOf frames))) s t
      ∧ OnlyUnit (.dec k) s t ∧ t.work = Work.idle ∧ t.draws = s.draws

/-- The first frame with a parse error decides a delivery, whatever its earlier tuples decode to and whatever follows; nothing is emitted
(60_exceptions.md R195 lines 2 to 4, R192; that the registers keep their values is the spec's decision D15). -/
def Obligations.ParseErrorDecides : Prop :=
  ∀ (c : Collaborators) (k : Nat) (chunk rest : Bytes) (frames : List Instr) (bad : Instr) (kind : ErrorKind) (s : State),
    LiveDec s k → (s.dec k).residual ++ chunk = (frames.map encode).flatten ++ encode bad ++ rest → GoodFrames frames →
    bad.isFrame = true → bad.encodable = true → frameContribution bad = .error kind →
    IdentifierInPlace (s.dec k).found ((s.dec k).residual ++ chunk) →
    ∃ t, decWrite c chunk s = .next t ∧ t.dec k = { s.dec k with phase := .failed, err := some kind }
      ∧ Answered (.dec k) (.err kind) s t ∧ OnlyUnit (.dec k) s t ∧ t.work = Work.idle ∧ t.draws = s.draws

/-- A batch with a failing tuple: one failing tuple's error is reported, for every `pickError`, and nothing of the batch is emitted
(42_decoder.md R158, 60_exceptions.md R195 line 4, D10, D15). -/
def Obligations.BatchErrorDecides : Prop :=
  ∀ (c : Collaborators) (k : Nat) (chunk tail : Bytes) (frames : List Instr) (s : State), LiveDec s k →
    (s.dec k).residual ++ chunk = (frames.map encode).flatten ++ tail → GoodFrames frames → complete tail 0 = false →
    IdentifierInPlace (s.dec k).found ((s.dec k).residual ++ chunk) →
    (∃ x ∈ batchOf frames, ∃ e, decodeTuple c (s.dec k).verify x = .error e) →
    ∃ t kind, decWrite c chunk s = .next t ∧ t.dec k = { s.dec k with phase := .failed, err := some kind }
      ∧ (∃ x ∈ batchOf frames, decodeTuple c (s.dec k).verify x = .error kind)
      ∧ Answered (.dec k) (.err kind) s t ∧ OnlyUnit (.dec k) s t ∧ t.work = Work.idle

/-- A delivery that would leave more than `RESIDUAL_CAP` bytes commits nothing, sets `capacity_fault` and is refused (42_decoder.md R160, 20_memory.md
R61, the spec's decision D14). -/
def Obligations.CapacityRefusal : Prop :=
  ∀ (c : Collaborators) (cap k : Nat) (chunk tail : Bytes) (frames : List Instr) (s : State), c.residualCap = some cap →
    LiveDec s k → (s.dec k).residual ++ chunk = (frames.map encode).flatten ++ tail → GoodFrames frames →
    complete tail 0 = false → IdentifierInPlace (s.dec k).found ((s.dec k).residual ++ chunk) →
    (∀ x ∈ batchOf frames, ∃ d, decodeTuple c (s.dec k).verify x = .ok d) → cap < tail.length →
    ∃ t, decWrite c chunk s = .next t ∧ t.dec k = { s.dec k with capacityFault := true }
      ∧ Answered (.dec k) .refused s t ∧ OnlyUnit (.dec k) s t ∧ t.work = Work.idle ∧ t.draws = s.draws

/-- Decoding a tuple: a raw block is taken as it is, a compressed one is the decompressor's answer or `DecompressionFailure`; and with `verify` the
decoded block's mask must be the stored one, without it nothing is checked (42_decoder.md R156, R157). -/
def Obligations.TupleDecoding : Prop :=
  ∀ (c : Collaborators) (m : Word) (blk : Bytes) (verify : Bool),
    decodeTuple c verify ⟨.uncompressed, m, blk⟩ =
      (if verify = true ∧ maskTransform (c.crc32c blk) ≠ m then .error .checksumMismatch else .ok blk)
    ∧ (c.decompressFn blk = none → decodeTuple c verify ⟨.compressed, m, blk⟩ = .error .decompressionFailure)
    ∧ ∀ d, c.decompressFn blk = some d → decodeTuple c verify ⟨.compressed, m, blk⟩ =
      (if verify = true ∧ maskTransform (c.crc32c d) ≠ m then .error .checksumMismatch else .ok d)

/-- `DEC_WRITE` outside the live phases: dropped without effect in `Failed`, refused with `protocol_fault` in `Closed` (42_decoder.md R161; the second is
the spec's decision D6). -/
def Obligations.DecWriteOutsideLivePhases : Prop :=
  ∀ (k : Nat) (chunk : Bytes) (s : State), s.port = .dec k → (s.dec k).everReset = true →
    ((s.dec k).phase = .failed →
      exec (.decWrite chunk) s = .next { s with responses := s.responses ++ [(.dec k, .dropped)] })
    ∧ ((s.dec k).phase = .closed →
      ∃ t, exec (.decWrite chunk) s = .next t ∧ t.dec k = { s.dec k with protocolFault := true }
        ∧ Answered (.dec k) .refused s t ∧ OnlyUnit (.dec k) s t ∧ t.work = s.work ∧ t.draws = s.draws)

/-- `DEC_END` completes on every live decoder with nothing left over; with a residual it raises `TruncatedStream`; it is dropped in `Failed` and refused in
`Closed` (42_decoder.md R162; the refusal is the spec's decision D6, success with no identifier seen its decision D20). -/
def Obligations.DecEndClosesOrTruncates : Prop :=
  (∀ (k : Nat) (s : State), LiveDec s k → (s.dec k).residual = [] →
    ∃ t, exec (.decEnd []) s = .next t ∧ t.dec k = { s.dec k with phase := .closed }
      ∧ Answered (.dec k) (.ok []) s t ∧ OnlyUnit (.dec k) s t ∧ t.work = s.work ∧ t.draws = s.draws)
  ∧ (∀ (k : Nat) (s : State), LiveDec s k → (s.dec k).residual ≠ [] →
    ∃ t, exec (.decEnd []) s = .next t ∧ t.dec k = { s.dec k with phase := .failed, err := some .truncatedStream }
      ∧ Answered (.dec k) (.err .truncatedStream) s t ∧ OnlyUnit (.dec k) s t ∧ t.work = s.work ∧ t.draws = s.draws)
  ∧ (∀ (k : Nat) (s : State), s.port = .dec k → (s.dec k).everReset = true → (s.dec k).phase = .failed →
    exec (.decEnd []) s = .next { s with responses := s.responses ++ [(.dec k, .dropped)] })
  ∧ (∀ (k : Nat) (s : State), s.port = .dec k → (s.dec k).everReset = true → (s.dec k).phase = .closed →
    ∃ t, exec (.decEnd []) s = .next t ∧ t.dec k = { s.dec k with protocolFault := true }
      ∧ Answered (.dec k) .refused s t ∧ OnlyUnit (.dec k) s t ∧ t.work = s.work ∧ t.draws = s.draws)

/-- The residual of a decoder that meets the invariant is at most `3 + 2^24 - 1` bytes (20_memory.md R61, the spec's own derivation). -/
def Obligations.ResidualBound : Prop :=
  ∀ (c : Collaborators) (u : DecUnit), u.Inv c → u.residual.length ≤ 16777218

/-- How a delivery is cut does not matter: two chunkings of one stream, each ended, both close with the same output or both fail (42_decoder.md
R164, the spec's own derivation; `RESIDUAL_CAP` unbounded). -/
def Obligations.ChunkingIndependence : Prop :=
  ∀ (c : Collaborators) (k : Nat) (verify : Bool) (pieces₁ pieces₂ : List Bytes) (s₁ s₂ : State),
    c.residualCap = none → pieces₁.flatten = pieces₂.flatten →
    ∃ t₁ t₂, runOn c (.dec k) (decoderScript verify pieces₁) s₁ = .next t₁
      ∧ runOn c (.dec k) (decoderScript verify pieces₂) s₂ = .next t₂
      ∧ (((t₁.dec k).phase = .closed ∧ (t₂.dec k).phase = .closed ∧ (t₁.dec k).out = (t₂.dec k).out)
        ∨ ((t₁.dec k).phase = .failed ∧ (t₂.dec k).phase = .failed))

/-- Round trip: an encoder's whole output, cut in any way, decodes to the bytes that were encoded, with or without verification (41_encoder.md R123,
the spec's own derivation; the collaborators satisfy `LAW_INVERSE`, no compressor call of the run fails, `RESIDUAL_CAP` unbounded). -/
def Obligations.RoundTrip : Prop :=
  ∀ (c : Collaborators) (ke kd : Nat) (verify : Bool) (chunks pieces : List Bytes) (s t : State),
    LawInverse c → CallsSucceed c s.draws (callCount chunks) → c.residualCap = none →
    runOn c (.enc ke) (encoderScript chunks) s = .next t → pieces.flatten = (t.enc ke).out →
    ∃ t', runOn c (.dec kd) (decoderScript verify pieces) t = .next t'
      ∧ (t'.dec kd).phase = .closed ∧ (t'.dec kd).out = chunks.flatten

/-! ### The whole machine -/

/-- A step performs the oldest packet issued: the command it decodes to, on its port (10_state.md R20, 20_memory.md R58), or the refusal of a
packet that decodes to none, short and wrong-length packets among them, in every phase, `Failed` included (30_encoding.md R86, R87); with nothing
issued the state stays. That the refusal comes before the `Dropped` of 60_exceptions.md R194, and that a short packet or a wrong length is illegal,
is the model's reading (DEDUCED, log 9); that the state stays with nothing issued is its choice (DESIGN CHOICE, log 4). -/
def Obligations.StepRunsDecodedCommand : Prop :=
  (∀ (s : State) (p : Port) (packet : Bytes) (rest : List (Port × Bytes)) (i : Instr),
    s.pending = (p, packet) :: rest → decodePacket packet = .ok i →
    step s = exec i { s with pending := rest, port := p })
  ∧ (∀ (s : State) (p : Port) (packet : Bytes) (rest : List (Port × Bytes)) (e : DecodeError),
    s.pending = (p, packet) :: rest → decodePacket packet = .error e →
    step s = .next (State.refuse { s with pending := rest, port := p } p))
  ∧ (∀ s : State, s.pending = [] → step s = .next s)

/-- `exec` is the collaborator-generic meaning with the platform's collaborators (00_scope.md R7, R201). -/
def Obligations.ExecUsesPlatform : Prop := ∀ (i : Instr) (s : State), exec i s = execWith Config.platform i s

/-- The machine never stops: every instruction and every step answers a next state (60_exceptions.md R192, R194, 10_state.md R41). -/
def Obligations.EveryStepCompletes : Prop :=
  (∀ (i : Instr) (s : State), ∃ t, exec i s = .next t) ∧ ∀ s : State, ∃ t, step s = .next t

/-- Every command gives exactly one response, on its own port (10_state.md R20, R42). -/
def Obligations.OneResponsePerCommand : Prop :=
  ∀ (i : Instr) (s t : State), i.isFrame = false → exec i s = .next t → ∃ r, Answered s.port r s t

/-- A command writes no unit but the one at its port (10_state.md R22, 60_exceptions.md R202). -/
def Obligations.CommandsTouchOnlyTheirUnit : Prop :=
  ∀ (i : Instr) (s t : State), i.isFrame = false → exec i s = .next t → OnlyUnit s.port s t

/-- Instances share nothing: what a command does to its unit and what it answers depends on that unit and the draws alone, whatever every
other unit, queue and log holds (10_state.md R22, 20_memory.md R58). -/
def Obligations.UnitsActIndependently : Prop :=
  ∀ (i : Instr) (s₁ s₂ t₁ t₂ : State), i.isFrame = false → s₁.port = s₂.port → s₁.draws = s₂.draws →
    SameUnit s₁.port s₁ s₂ → exec i s₁ = .next t₁ → exec i s₂ = .next t₂ →
    SameUnit s₁.port t₁ t₂ ∧ t₁.draws = t₂.draws ∧ ∃ r, Answered s₁.port r s₁ t₁ ∧ Answered s₁.port r s₂ t₂

/-- A packet that 30_encoding.md R84 does not list for the unit that receives it sets that unit's `protocol_fault` and is refused, and changes nothing
else, in every phase (R86, the spec's decisions D3 and D6; that it comes before `Dropped` is log 9). -/
def Obligations.IllegalPacketsAreRefused : Prop :=
  ∀ (s : State) (p : Port) (packet : Bytes) (rest : List (Port × Bytes)), s.pending = (p, packet) :: rest →
    ¬ LegalPacket p packet →
    ∃ t, step s = .next t ∧ Answered p .refused s t ∧ OnlyUnit p { s with pending := rest, port := p } t
      ∧ t.work = s.work ∧ t.draws = s.draws
      ∧ (∀ k, p = .enc k → t.enc k = { s.enc k with protocolFault := true })
      ∧ (∀ k, p = .dec k → t.dec k = { s.dec k with protocolFault := true })
      ∧ (p = .mask → t.maskUnit.protocolFault = true)

/-- A unit that has never been reset refuses everything but its reset (70_reset_and_hazards.md R222, the spec's decision D16). -/
def Obligations.NeverResetUnitsRefuse : Prop :=
  (∀ (k : Nat) (s : State) (i : Instr), s.port = .enc k → (s.enc k).everReset = false →
    i = .encEnd [] ∨ (∃ chunk, i = .encWrite chunk) →
    ∃ t, exec i s = .next t ∧ t.enc k = { s.enc k with protocolFault := true }
      ∧ Answered (.enc k) .refused s t ∧ OnlyUnit (.enc k) s t ∧ t.work = s.work ∧ t.draws = s.draws)
  ∧ (∀ (k : Nat) (s : State) (i : Instr), s.port = .dec k → (s.dec k).everReset = false →
    i = .decEnd [] ∨ (∃ chunk, i = .decWrite chunk) →
    ∃ t, exec i s = .next t ∧ t.dec k = { s.dec k with protocolFault := true }
      ∧ Answered (.dec k) .refused s t ∧ OnlyUnit (.dec k) s t ∧ t.work = s.work ∧ t.draws = s.draws)

/-- Errors are precise: a command that answers `Err(K)` leaves its unit as it was but for phase and error kind, and touches nothing else
(60_exceptions.md R192, 20_memory.md R56; the rollback is the spec's decision D15). -/
def Obligations.ErrorsArePrecise : Prop :=
  ∀ (i : Instr) (s t : State) (kind : ErrorKind), i.isFrame = false → exec i s = .next t →
    Answered s.port (.err kind) s t →
    (∃ k, s.port = .enc k ∧ t.enc k = { s.enc k with phase := .failed, err := some kind })
    ∨ (∃ k, s.port = .dec k ∧ t.dec k = { s.dec k with phase := .failed, err := some kind })

/-- `Failed` is terminal: whatever command or illegal packet comes but the unit's reset, the phase and the error kind stay, no second error is
reported and no byte is emitted (60_exceptions.md R194, R196). -/
def Obligations.FailedIsTerminal : Prop :=
  ∀ (i : Instr) (s t : State), i.isFrame = false → exec i s = .next t →
    (∀ k, (s.enc k).phase = .failed → i ≠ .encReset [] →
      (t.enc k).phase = .failed ∧ (t.enc k).err = (s.enc k).err ∧ (t.enc k).out = (s.enc k).out)
    ∧ (∀ k, (s.dec k).phase = .failed → i ≠ .decReset [0x00#8] → i ≠ .decReset [0x01#8] →
      (t.dec k).phase = .failed ∧ (t.dec k).err = (s.dec k).err ∧ (t.dec k).out = (s.dec k).out)
    ∧ (∀ k kind, s.port = .enc k → (s.enc k).phase = .failed → ¬ Answered s.port (.err kind) s t)
    ∧ (∀ k kind, s.port = .dec k → (s.dec k).phase = .failed → ¬ Answered s.port (.err kind) s t)

/-- Output streams only grow, and by exactly the bytes the response carries; only the unit's reset starts one afresh (10_state.md R25, R33, R42, the spec's
decision D26). -/
def Obligations.OutputGrowsByTheReply : Prop :=
  ∀ (i : Instr) (s t : State) (r : Response), i.isFrame = false → exec i s = .next t → Answered s.port r s t →
    (∀ k, s.port = .enc k → i ≠ .encReset [] → (t.enc k).out = (s.enc k).out ++ r.bytes)
    ∧ (∀ k, s.port = .dec k → i ≠ .decReset [0x00#8] → i ≠ .decReset [0x01#8] → (t.dec k).out = (s.dec k).out ++ r.bytes)

/-- `dec.found` is cleared, and `dec.verify` written, by no command but `DEC_RESET` (10_state.md R29, R31, R45). -/
def Obligations.FoundAndVerifyPersist : Prop :=
  ∀ (i : Instr) (s t : State) (k : Nat), i.isFrame = false → (∀ operand, i ≠ .decReset operand) → exec i s = .next t →
    (t.dec k).verify = (s.dec k).verify ∧ ((s.dec k).found = true → (t.dec k).found = true)

/-- An encoder's phase changes only along the transitions of 10_state.md R39. -/
def Obligations.EncoderPhaseTransitions : Prop :=
  ∀ (i : Instr) (s t : State) (k : Nat), i.isFrame = false → exec i s = .next t → (t.enc k).phase ≠ (s.enc k).phase →
    (i = .encReset [] ∧ (t.enc k).phase = .opened)
    ∨ ((s.enc k).phase = .opened ∧ i = .encEnd [] ∧ (t.enc k).phase = .closed)
    ∨ ((s.enc k).phase = .opened ∧ (∃ chunk, i = .encWrite chunk) ∧ (t.enc k).phase = .failed
        ∧ (t.enc k).err = some .compressionFailure)

/-- A decoder's phase changes only along the transitions of 10_state.md R38, from states whose phase agrees with its registers (R37; the spec's own
derivation). -/
def Obligations.DecoderPhaseTransitions : Prop :=
  ∀ (i : Instr) (s t : State) (k : Nat), i.isFrame = false → (s.dec k).Inv Config.platform → exec i s = .next t →
    (t.dec k).phase ≠ (s.dec k).phase →
    ((∃ operand, i = .decReset operand) ∧ (t.dec k).phase = .notStarted)
    ∨ ((s.dec k).phase.isTerminal = false ∧ i = .decEnd [] ∧ (s.dec k).residual = [] ∧ (t.dec k).phase = .closed)
    ∨ ((s.dec k).phase.isTerminal = false ∧ i = .decEnd [] ∧ (s.dec k).residual ≠ [] ∧ (t.dec k).phase = .failed
        ∧ (t.dec k).err = some .truncatedStream)
    ∨ ((s.dec k).phase.isTerminal = false ∧ (∃ chunk, i = .decWrite chunk) ∧ (t.dec k).phase = .failed)
    ∨ ((s.dec k).phase = .notStarted ∧ (∃ chunk, i = .decWrite chunk) ∧ (t.dec k).found = false
        ∧ (t.dec k).residual ≠ [] ∧ (t.dec k).phase = .awaitingIdentifier)
    ∨ (((s.dec k).phase = .notStarted ∨ (s.dec k).phase = .awaitingIdentifier) ∧ (∃ chunk, i = .decWrite chunk)
        ∧ (t.dec k).found = true ∧ (t.dec k).phase = .streaming)

/-- The invariant of the registers between commands is kept by every step: banks canonical, phases agreeing with the registers, residuals never holding
a complete frame, no output before the identifier, every encoder output starting with `ID_FRAME`, no transient value left over (10_state.md
R24, R30, R32, R37, R43, 41_encoder.md R121, 42_decoder.md R163).  That a unit never reset holds the placeholder values is the model's choice, where
70_reset_and_hazards.md R222 leaves that state undefined (log 2, DESIGN CHOICE). -/
def Obligations.StepKeepsInvariant : Prop :=
  ∀ s t : State, s.Inv Config.platform → step s = .next t → t.Inv Config.platform

/-- The state after reset meets the invariant (10_state.md R43).  Which instances are reset there, and `verify`, are the model's choice (log 1), and so are
the placeholder values of the others, which R222 leaves undefined (log 2). -/
def Obligations.ResetMeetsInvariant : Prop := State.reset.Inv Config.platform

/-! ### Views -/

/-- The status words, field by field (10_state.md R46, the spec's decision D11), with the phase codes of R23 and R28 and the error codes of
60_exceptions.md R190 spelled out; and that each unit, at its port, exposes one.  The mask unit's is a free value of its bit (log 19), which no `MASK`
changes. -/
def Obligations.StatusWordFields : Prop :=
  (∀ u : EncUnit,
    (encStatus u).extractLsb' 0 2 = (match u.phase with
      | .opened => 0#2
      | .closed => 1#2
      | .failed => 2#2)
    ∧ (encStatus u).extractLsb' 2 2 = 0#2
    ∧ (encStatus u).getLsbD 8 = u.protocolFault ∧ (encStatus u).extractLsb' 9 7 = 0#7)
  ∧ (∀ u : DecUnit,
    (decStatus u).extractLsb' 0 3 = (match u.phase with
      | .notStarted => 0#3
      | .awaitingIdentifier => 1#3
      | .streaming => 2#3
      | .closed => 3#3
      | .failed => 4#3)
    ∧ (decStatus u).getLsbD 3 = u.found
    ∧ (decStatus u).getLsbD 4 = u.verify ∧ (decStatus u).extractLsb' 5 3 = 0#3
    ∧ (decStatus u).getLsbD 12 = u.protocolFault ∧ (decStatus u).getLsbD 13 = u.capacityFault
    ∧ (decStatus u).extractLsb' 14 2 = 0#2)
  ∧ (∀ x ∈ [(none, 0#4), (some .missingStreamIdentifier, 1#4), (some .invalidStreamIdentifier, 2#4),
      (some .unskippableFrame, 3#4), (some .checksumMismatch, 4#4), (some .truncatedStream, 5#4),
      (some .compressionFailure, 6#4), (some .decompressionFailure, 7#4), (some ErrorKind.shortDataFrame, 8#4)],
    (∀ u : EncUnit, u.err = x.1 → (encStatus u).extractLsb' 4 4 = x.2)
    ∧ (∀ u : DecUnit, u.err = x.1 → (decStatus u).extractLsb' 8 4 = x.2))
  ∧ (∀ (s : State) (k : Nat), s.statusWord (.enc k) = encStatus (s.enc k) ∧ s.statusWord (.dec k) = decStatus (s.dec k))
  ∧ (∀ s : State, s.statusWord .mask = Config.maskStatusWord s.maskUnit.protocolFault)
  ∧ ∀ (data : Bytes) (s : State), s.port = .mask →
    ∃ t, exec (.mask data) s = .next t ∧ ∀ p, t.statusWord p = s.statusWord p

/-- The error codes and the response packets (60_exceptions.md R190, 30_encoding.md R85, the spec's decisions D3 and D11; `Ok(b)` has a packet when
`LE32` can count `b`, log 11). -/
def Obligations.ResponsePackets : Prop :=
  (∀ b : Bytes, b.length < 2 ^ 32 → ∃ packet, responsePacket (.ok b) = some packet
      ∧ packet = [0x00#8] ++ pack32 (BitVec.ofNat 32 b.length) ++ b ∧ packet.length = 5 + b.length
      ∧ le32Nat packet 1 = b.length)
  ∧ (∀ v : Word, responsePacket (.okMask v) = some ([0x00#8, 0x04#8, 0x00#8, 0x00#8, 0x00#8] ++ pack32 v))
  ∧ responsePacket .refused = some [0xFD#8] ∧ responsePacket .dropped = some [0xFE#8]
  ∧ responsePacket (.err .missingStreamIdentifier) = some [0x01#8]
  ∧ responsePacket (.err .invalidStreamIdentifier) = some [0x02#8]
  ∧ responsePacket (.err .unskippableFrame) = some [0x03#8] ∧ responsePacket (.err .checksumMismatch) = some [0x04#8]
  ∧ responsePacket (.err .truncatedStream) = some [0x05#8] ∧ responsePacket (.err .compressionFailure) = some [0x06#8]
  ∧ responsePacket (.err .decompressionFailure) = some [0x07#8] ∧ responsePacket (.err .shortDataFrame) = some [0x08#8]
end

