-- ==== Sys2Proof/Laws/Bank.lean ====
section
/-! SUPPORT. Banks of unit instances: reads after writes, the canonical form, and that canonical banks with the same units are equal. -/

namespace Sys2Proof.Machine

variable {α : Type} {d v : α} {b : List (Nat × α)} {j k : Nat}

theorem bankRead_bankInsert_self : bankRead d (bankInsert b k v) k = v := by
  induction b with
  | nil => simp [bankInsert, bankRead]
  | cons e rest ih =>
    obtain ⟨i, w⟩ := e
    simp only [bankInsert]
    split
    · next h => simp [bankRead, Nat.ne_of_lt h, ih]
    · split <;> simp [bankRead]

theorem bankRead_bankInsert_other (h : j ≠ k) : bankRead d (bankInsert b k v) j = bankRead d b j := by
  induction b with
  | nil => simp [bankInsert, bankRead, h.symm]
  | cons e rest ih =>
    obtain ⟨i, w⟩ := e
    simp only [bankInsert]
    split
    · simp [bankRead, ih]
    · split
      · next h2 => subst h2; simp [bankRead, h.symm]
      · simp [bankRead, h.symm]

theorem bankRead_filter_self : bankRead d (b.filter fun e => decide (e.1 ≠ k)) k = d := by
  induction b with
  | nil => rfl
  | cons e rest ih =>
    obtain ⟨i, w⟩ := e
    by_cases h : i = k
    · simpa [List.filter_cons, h] using ih
    · simpa [List.filter_cons, h, bankRead] using ih

theorem bankRead_filter_other (h : j ≠ k) :
    bankRead d (b.filter fun e => decide (e.1 ≠ k)) j = bankRead d b j := by
  induction b with
  | nil => rfl
  | cons e rest ih =>
    obtain ⟨i, w⟩ := e
    by_cases h2 : i = k
    · have h3 : i ≠ j := fun e => h (e ▸ h2)
      subst h2
      simpa [List.filter_cons, bankRead, h.symm] using ih
    · simp only [ne_eq, h2, not_false_eq_true, decide_true, List.filter_cons_of_pos, bankRead]
      split
      · rfl
      · simpa using ih

variable [DecidableEq α]

/-- A unit read after it is written is the one written. -/
@[simp] theorem bankRead_bankWrite_self : bankRead d (bankWrite d b k v) k = v := by
  unfold bankWrite
  split
  · next h => rw [bankRead_filter_self, h]
  · exact bankRead_bankInsert_self

/-- Writing one unit leaves every other alone. -/
theorem bankRead_bankWrite_other (h : j ≠ k) : bankRead d (bankWrite d b k v) j = bankRead d b j := by
  unfold bankWrite
  split
  · exact bankRead_filter_other h
  · exact bankRead_bankInsert_other h

theorem bankWf_cons {w : α} :
    bankWf d ((k, w) :: b) = true ↔ w ≠ d ∧ (∀ e ∈ b, k < e.1) ∧ bankWf d b = true := by
  simp [bankWf, and_assoc]

omit [DecidableEq α] in
theorem mem_bankInsert {e : Nat × α} (h : e ∈ bankInsert b k v) : e = (k, v) ∨ e ∈ b := by
  induction b with
  | nil => simpa [bankInsert] using h
  | cons f rest ih =>
    obtain ⟨i, w⟩ := f
    simp only [bankInsert] at h
    split at h
    · rcases List.mem_cons.1 h with h | h
      · exact .inr (h ▸ List.mem_cons_self)
      · exact (ih h).imp id (List.mem_cons_of_mem _)
    · split at h
      · rcases List.mem_cons.1 h with h | h
        · exact .inl h
        · exact .inr (List.mem_cons_of_mem _ h)
      · exact List.mem_cons.1 h

theorem bankWf_bankInsert (hv : v ≠ d) (hb : bankWf d b = true) : bankWf d (bankInsert b k v) = true := by
  induction b with
  | nil => simp [bankInsert, bankWf, hv]
  | cons e rest ih =>
    obtain ⟨i, w⟩ := e
    obtain ⟨hw, hi, hr⟩ := bankWf_cons.1 hb
    simp only [bankInsert]
    split
    · next h =>
      refine bankWf_cons.2 ⟨hw, fun f hf => ?_, ih hr⟩
      rcases mem_bankInsert hf with rfl | hf
      · exact h
      · exact hi f hf
    · split
      · next h2 => subst h2; exact bankWf_cons.2 ⟨hv, hi, hr⟩
      · next h1 h2 =>
        have hlt : k < i := by omega
        refine bankWf_cons.2 ⟨hv, fun f hf => ?_, hb⟩
        rcases List.mem_cons.1 hf with rfl | hf
        · exact hlt
        · exact lt_trans hlt (hi f hf)

theorem bankWf_filter (p : Nat × α → Bool) (hb : bankWf d b = true) : bankWf d (b.filter p) = true := by
  induction b with
  | nil => rfl
  | cons e rest ih =>
    obtain ⟨i, w⟩ := e
    obtain ⟨hw, hi, hr⟩ := bankWf_cons.1 hb
    rw [List.filter_cons]
    split
    · exact bankWf_cons.2 ⟨hw, fun f hf => hi f (List.mem_of_mem_filter hf), ih hr⟩
    · exact ih hr

/-- Writing a unit keeps the canonical form. -/
theorem bankWf_bankWrite (hb : bankWf d b = true) : bankWf d (bankWrite d b k v) = true := by
  unfold bankWrite
  split
  · exact bankWf_filter _ hb
  · next h => exact bankWf_bankInsert h hb

omit [DecidableEq α] in
theorem bankRead_of_lt (h : ∀ e ∈ b, k < e.1) : bankRead d b k = d := by
  induction b with
  | nil => rfl
  | cons e rest ih =>
    have := h e List.mem_cons_self
    obtain ⟨i, w⟩ := e
    simp [bankRead, (Nat.ne_of_lt this).symm, ih fun f hf => h f (List.mem_cons_of_mem _ hf)]

/-- Canonical banks that hold the same units are the same list: equal banks are equal data. -/
theorem bank_ext {b₁ b₂ : List (Nat × α)} (h₁ : bankWf d b₁ = true) (h₂ : bankWf d b₂ = true)
    (h : ∀ k, bankRead d b₁ k = bankRead d b₂ k) : b₁ = b₂ := by
  induction b₁ generalizing b₂ with
  | nil =>
    cases b₂ with
    | nil => rfl
    | cons e rest =>
      obtain ⟨i, w⟩ := e
      have := h i
      simp [bankRead] at this
      exact absurd this.symm (bankWf_cons.1 h₂).1
  | cons e r₁ ih =>
    obtain ⟨i, w⟩ := e
    obtain ⟨hw, hi, hr⟩ := bankWf_cons.1 h₁
    cases b₂ with
    | nil =>
      have := h i
      simp [bankRead] at this
      exact absurd this hw
    | cons f r₂ =>
      obtain ⟨i', w'⟩ := f
      obtain ⟨hw', hi', hr'⟩ := bankWf_cons.1 h₂
      have hii : i = i' := by
        rcases lt_trichotomy i i' with hlt | heq | hgt
        · have hx := h i
          have hz : bankRead d ((i', w') :: r₂) i = d := by
            refine bankRead_of_lt fun f hf => ?_
            rcases List.mem_cons.1 hf with rfl | hf
            · exact hlt
            · exact lt_trans hlt (hi' f hf)
          rw [hz] at hx
          simp [bankRead] at hx
          exact absurd hx hw
        · exact heq
        · have hx := h i'
          have hz : bankRead d ((i, w) :: r₁) i' = d := by
            refine bankRead_of_lt fun f hf => ?_
            rcases List.mem_cons.1 hf with rfl | hf
            · exact hgt
            · exact lt_trans hgt (hi f hf)
          rw [hz] at hx
          simp [bankRead] at hx
          exact absurd hx.symm hw'
      subst hii
      have hww : w = w' := by simpa [bankRead] using h i
      subst hww
      refine congrArg _ (ih hr hr' fun k => ?_)
      by_cases hk : i = k
      · subst hk
        rw [bankRead_of_lt hi, bankRead_of_lt hi']
      · simpa [bankRead, hk] using h k

end Sys2Proof.Machine
end

