-- ==== Sys2Proof/Laws/Decode.lean ====
section
/-! SUPPORT. Byte order and encodings: packing and reading back, the classes of the frame-type map, and what the decoders read from an
encoded frame or packet with anything after it. -/

namespace Sys2Proof

section Bytes
variable (a b c e : Byte) (r : Bytes)

@[simp] theorem byteAt_zero : byteAt (a :: r) 0 = a := rfl
@[simp] theorem byteAt_succ (i : Nat) : byteAt (a :: r) (i + 1) = byteAt r i := by simp [byteAt]

theorem byteAt_append_left {s t : Bytes} {i : Nat} (h : i < s.length) : byteAt (s ++ t) i = byteAt s i := by
  simp [byteAt, List.getD_eq_getElem?_getD, List.getElem?_append_left h]

theorem byteAt_drop (s : Bytes) (i j : Nat) : byteAt (s.drop i) j = byteAt s (i + j) := by
  simp [byteAt, List.getD_eq_getElem?_getD, List.getElem?_drop]

theorem le24_drop (s : Bytes) (i j : Nat) : le24 (s.drop i) j = le24 s (i + j) := by
  simp [le24, byteAt_drop, Nat.add_assoc]

theorem payloadLength_drop (s : Bytes) (i j : Nat) : payloadLength (s.drop i) j = payloadLength s (i + j) := by
  simp [payloadLength, le24_drop, Nat.add_assoc]

theorem memRead_drop (s : Bytes) (i j n : Nat) : memRead (s.drop i) j n = memRead s (i + j) n := by
  simp [memRead, List.drop_drop]

theorem le24_append_left {s t : Bytes} {i : Nat} (h : i + 3 ≤ s.length) : le24 (s ++ t) i = le24 s i := by
  simp only [le24, byteAt_append_left (show i < s.length by omega), byteAt_append_left (show i + 1 < s.length by omega),
    byteAt_append_left (show i + 2 < s.length by omega)]

theorem payloadLength_append_left {s t : Bytes} {i : Nat} (h : i + 4 ≤ s.length) :
    payloadLength (s ++ t) i = payloadLength s i := le24_append_left (by omega)

theorem memRead_append_left {s t : Bytes} {i n : Nat} (h : i + n ≤ s.length) : memRead (s ++ t) i n = memRead s i n := by
  rw [memRead, memRead, List.drop_append_of_le_length (by omega), List.take_append_of_le_length (by simp; omega)]

theorem memRead_length {s : Bytes} {i n : Nat} (h : i + n ≤ s.length) : (memRead s i n).length = n := by
  simp [memRead]; omega

/-- A 24-bit field holds less than `2^24` (R71). -/
theorem le24_lt (s : Bytes) (i : Nat) : le24 s i < 2 ^ 24 := by
  have h0 := (byteAt s i).isLt; have h1 := (byteAt s (i + 1)).isLt; have h2 := (byteAt s (i + 2)).isLt
  simp only [le24]; omega

theorem le32Nat_lt (s : Bytes) (i : Nat) : le32Nat s i < 2 ^ 32 := by
  have h0 := (byteAt s i).isLt; have h1 := (byteAt s (i + 1)).isLt
  have h2 := (byteAt s (i + 2)).isLt; have h3 := (byteAt s (i + 3)).isLt
  simp only [le32Nat]; omega

@[simp] theorem pack24_length (n : Nat) : (pack24 n).length = 3 := rfl
@[simp] theorem pack32_length (v : Word) : (pack32 v).length = 4 := rfl

/-- Reading back a packed 24-bit field. -/
theorem le24_pack24 {n : Nat} (h : n < 2 ^ 24) (t : Bytes) : le24 (pack24 n ++ t) 0 = n := by
  simp [le24, pack24, BitVec.toNat_ofNat]; omega

/-- Packing what a 24-bit field reads as gives its bytes. -/
theorem pack24_le24 : pack24 (le24 (a :: b :: c :: r) 0) = [a, b, c] := by
  have ha := a.isLt; have hb := b.isLt; have hc := c.isLt
  simp only [pack24, le24, byteAt_zero, byteAt_succ, List.cons.injEq, and_true]
  refine ⟨?_, ?_, ?_⟩ <;> apply BitVec.eq_of_toNat_eq <;> simp only [BitVec.toNat_ofNat] <;> omega

theorem extractLsb'_toNat (v : Word) (i : Nat) : (v.extractLsb' i 8).toNat = v.toNat / 2 ^ i % 256 := by
  simp [BitVec.extractLsb'_toNat, Nat.shiftRight_eq_div_pow]

/-- Reading back a packed 32-bit field. -/
theorem le32_pack32 (v : Word) (t : Bytes) : le32 (pack32 v ++ t) 0 = v := by
  have := v.isLt
  apply BitVec.eq_of_toNat_eq
  simp only [le32, le32Nat, pack32, List.cons_append, byteAt_zero, byteAt_succ, BitVec.toNat_ofNat, extractLsb'_toNat]
  omega

theorem le32Nat_pack32 (v : Word) (t : Bytes) : le32Nat (pack32 v ++ t) 0 = v.toNat := by
  have := v.isLt
  simp only [le32Nat, pack32, List.cons_append, byteAt_zero, byteAt_succ, extractLsb'_toNat]
  omega

/-- Packing what a 32-bit field reads as gives its bytes. -/
theorem pack32_le32 : pack32 (le32 (a :: b :: c :: e :: r) 0) = [a, b, c, e] := by
  have ha := a.isLt; have hb := b.isLt; have hc := c.isLt; have he := e.isLt
  simp only [pack32, le32, le32Nat, byteAt_zero, byteAt_succ, List.cons.injEq, and_true]
  refine ⟨?_, ?_, ?_, ?_⟩ <;> apply BitVec.eq_of_toNat_eq <;>
    simp only [extractLsb'_toNat, BitVec.toNat_ofNat] <;> omega

end Bytes

section Classes

@[simp] theorem classify_identifier : classify 0xFF#8 = .identifier := by decide
@[simp] theorem classify_compressed : classify 0x00#8 = .compressed := by decide
@[simp] theorem classify_uncompressed : classify 0x01#8 = .uncompressed := by decide
@[simp] theorem classify_padding : classify 0xFE#8 = .padding := by decide

theorem classify_unskippable {t : Byte} (h : isUnskippableCode t = true) : classify t = .unskippable t := by
  revert t; decide

theorem classify_skippable {t : Byte} (h : isSkippableCode t = true) : classify t = .skippable t := by
  revert t; decide

/-- Every type code is in exactly one of the rows of R77, with that row's class. -/
theorem classify_cases (t : Byte) :
    (t = 0xFF#8 ∧ classify t = .identifier) ∨ (t = 0x00#8 ∧ classify t = .compressed)
    ∨ (t = 0x01#8 ∧ classify t = .uncompressed) ∨ (t = 0xFE#8 ∧ classify t = .padding)
    ∨ (isSkippableCode t = true ∧ classify t = .skippable t)
    ∨ (isUnskippableCode t = true ∧ classify t = .unskippable t) := by
  revert t; decide

end Classes

section Frames
variable (t : Byte) (p rest : Bytes)

@[simp] theorem encodeFrame_length : (encodeFrame t p).length = 4 + p.length := by simp [encodeFrame]; omega
@[simp] theorem encodePacket_length : (encodePacket t p).length = 5 + p.length := by simp [encodePacket]; omega

@[simp] theorem encodeFrame_type : byteAt (encodeFrame t p ++ rest) 0 = t := rfl

theorem encodeFrame_payloadLength (h : p.length < 2 ^ 24) : payloadLength (encodeFrame t p ++ rest) 0 = p.length := by
  have := le24_pack24 h (p ++ rest)
  simpa [payloadLength, encodeFrame, le24] using this

theorem encodeFrame_payload : memRead (encodeFrame t p ++ rest) 4 p.length = p := by
  simp [memRead, encodeFrame, pack24]

theorem encodeFrame_drop : (encodeFrame t p ++ rest).drop (4 + p.length) = rest := by
  rw [List.drop_append_of_le_length (by simp), List.drop_of_length_le (by simp)]; rfl

/-- The frame decoder on an encoded frame with anything after it (R70-R72, R80). -/
theorem decodeFrame_encodeFrame (h : p.length < 2 ^ 24) :
    decodeFrame (encodeFrame t p ++ rest) = .ok (frameInstr t p, rest) := by
  rw [decodeFrame, encodeFrame_payloadLength t p rest h, encodeFrame_type, encodeFrame_payload, encodeFrame_drop]
  rw [if_neg (by simp; omega), if_neg (by simp)]

/-- The packet decoder on an encoded packet (R84). -/
theorem decodePacket_encodePacket (h : p.length < 2 ^ 32) {i : Instr} (hi : commandInstr t p = some i) :
    decodePacket (encodePacket t p) = .ok i := by
  have hlen : le32Nat (encodePacket t p) 1 = p.length := by
    have := le32Nat_pack32 (BitVec.ofNat 32 p.length) p
    rw [BitVec.toNat_ofNat, Nat.mod_eq_of_lt h] at this
    simpa [encodePacket, le32Nat] using this
  have hdrop : (encodePacket t p).drop 5 = p := by simp [encodePacket, pack32]
  have h0 : byteAt (encodePacket t p) 0 = t := rfl
  rw [decodePacket, hlen, hdrop, h0, hi, if_neg (by simp)]
  simp

/-- A decoded frame is the head of its bytes, re-encoded. -/
theorem decodeFrame_inv {data : Bytes} {r : Instr × Bytes} (h : decodeFrame data = .ok r) :
    ∃ t p, r.1 = frameInstr t p ∧ p.length < 2 ^ 24 ∧ data = encodeFrame t p ++ r.2 := by
  unfold decodeFrame at h
  split at h
  · cases h
  split at h
  · cases h
  next h4 hn =>
    cases h
    match data, h4, hn with
    | a :: b :: c :: e :: l, _, hn =>
      simp only [List.length_cons] at hn
      have hp : (memRead (a :: b :: c :: e :: l) 4 (payloadLength (a :: b :: c :: e :: l) 0)).length
          = payloadLength (a :: b :: c :: e :: l) 0 := memRead_length (by simp; omega)
      refine ⟨_, _, rfl, ?_, ?_⟩
      · rw [hp]; exact le24_lt _ _
      · rw [encodeFrame, hp]
        have hpl : payloadLength (a :: b :: c :: e :: l) 0 = le24 (b :: c :: e :: l) 0 := by
          simp [payloadLength, le24]
        rw [hpl, pack24_le24]
        simp [memRead, Nat.add_comm 4]
    | [], h4, _ => simp at h4
    | [_], h4, _ => simp at h4
    | [_, _], h4, _ => simp at h4
    | [_, _, _], h4, _ => simp at h4

/-- A decoded packet is its command's encoding. -/
theorem decodePacket_inv {data : Bytes} {i : Instr} (h : decodePacket data = .ok i) :
    ∃ t p, commandInstr t p = some i ∧ p.length < 2 ^ 32 ∧ data = encodePacket t p := by
  unfold decodePacket at h
  split at h
  · cases h
  split at h
  · cases h
  split at h
  next h5 _ j hj hlen =>
    cases h
    match data, h5, hlen, hj with
    | a :: b :: c :: e :: f :: l, _, hlen, hj =>
      have hl : l.length = le32Nat (b :: c :: e :: f :: l) 0 := by
        simp [le32Nat] at hlen ⊢; omega
      refine ⟨a, l, by simpa using hj, hl ▸ le32Nat_lt _ _, ?_⟩
      have hpk : BitVec.ofNat 32 l.length = le32 (b :: c :: e :: f :: l) 0 := by rw [hl]; rfl
      rw [encodePacket, hpk, pack32_le32]
      rfl
    | [], h5, _, _ => simp at h5
    | [_], h5, _, _ => simp at h5
    | [_, _], h5, _, _ => simp at h5
    | [_, _, _], h5, _, _ => simp at h5
    | [_, _, _, _], h5, _, _ => simp at h5
  · cases h

end Frames

end Sys2Proof
end

