-- ==== Sys2Proof/Laws/State.lean ====
section
/-! SUPPORT. What each state update leaves in each field, and each unit after an update of another. -/

namespace Sys2Proof.Machine

section Status
variable (s : State) (k : Nat)

@[simp] theorem State.statusWord_enc : s.statusWord (.enc k) = encStatus (s.enc k) := rfl
@[simp] theorem State.statusWord_dec : s.statusWord (.dec k) = decStatus (s.dec k) := rfl
@[simp] theorem State.statusWord_mask : s.statusWord .mask = maskStatus s.maskUnit := rfl

end Status

section Fields
variable (s : State) (k n : Nat) (u : EncUnit) (v : DecUnit) (w : Work) (p : Port) (r : Response)

@[simp] theorem State.setEnc_decs : (s.setEnc k u).decs = s.decs := rfl
@[simp] theorem State.setEnc_maskUnit : (s.setEnc k u).maskUnit = s.maskUnit := rfl
@[simp] theorem State.setEnc_work : (s.setEnc k u).work = s.work := rfl
@[simp] theorem State.setEnc_port : (s.setEnc k u).port = s.port := rfl
@[simp] theorem State.setEnc_pending : (s.setEnc k u).pending = s.pending := rfl
@[simp] theorem State.setEnc_responses : (s.setEnc k u).responses = s.responses := rfl
@[simp] theorem State.setEnc_draws : (s.setEnc k u).draws = s.draws := rfl
@[simp] theorem State.setDec_encs : (s.setDec k v).encs = s.encs := rfl
@[simp] theorem State.setDec_maskUnit : (s.setDec k v).maskUnit = s.maskUnit := rfl
@[simp] theorem State.setDec_work : (s.setDec k v).work = s.work := rfl
@[simp] theorem State.setDec_port : (s.setDec k v).port = s.port := rfl
@[simp] theorem State.setDec_pending : (s.setDec k v).pending = s.pending := rfl
@[simp] theorem State.setDec_responses : (s.setDec k v).responses = s.responses := rfl
@[simp] theorem State.setDec_draws : (s.setDec k v).draws = s.draws := rfl
@[simp] theorem State.setWork_encs : (s.setWork w).encs = s.encs := rfl
@[simp] theorem State.setWork_decs : (s.setWork w).decs = s.decs := rfl
@[simp] theorem State.setWork_maskUnit : (s.setWork w).maskUnit = s.maskUnit := rfl
@[simp] theorem State.setWork_work : (s.setWork w).work = w := rfl
@[simp] theorem State.setWork_port : (s.setWork w).port = s.port := rfl
@[simp] theorem State.setWork_pending : (s.setWork w).pending = s.pending := rfl
@[simp] theorem State.setWork_responses : (s.setWork w).responses = s.responses := rfl
@[simp] theorem State.setWork_draws : (s.setWork w).draws = s.draws := rfl
@[simp] theorem State.takeDraws_encs : (s.takeDraws n).encs = s.encs := rfl
@[simp] theorem State.takeDraws_decs : (s.takeDraws n).decs = s.decs := rfl
@[simp] theorem State.takeDraws_maskUnit : (s.takeDraws n).maskUnit = s.maskUnit := rfl
@[simp] theorem State.takeDraws_work : (s.takeDraws n).work = s.work := rfl
@[simp] theorem State.takeDraws_port : (s.takeDraws n).port = s.port := rfl
@[simp] theorem State.takeDraws_pending : (s.takeDraws n).pending = s.pending := rfl
@[simp] theorem State.takeDraws_responses : (s.takeDraws n).responses = s.responses := rfl
@[simp] theorem State.takeDraws_draws : (s.takeDraws n).draws = s.draws + n := rfl
@[simp] theorem State.reply_encs : (s.reply p r).encs = s.encs := rfl
@[simp] theorem State.reply_decs : (s.reply p r).decs = s.decs := rfl
@[simp] theorem State.reply_maskUnit : (s.reply p r).maskUnit = s.maskUnit := rfl
@[simp] theorem State.reply_work : (s.reply p r).work = s.work := rfl
@[simp] theorem State.reply_port : (s.reply p r).port = s.port := rfl
@[simp] theorem State.reply_pending : (s.reply p r).pending = s.pending := rfl
@[simp] theorem State.reply_responses : (s.reply p r).responses = s.responses ++ [(p, r)] := rfl
@[simp] theorem State.reply_draws : (s.reply p r).draws = s.draws := rfl

@[simp] theorem State.onPort_encs : (s.onPort p).encs = s.encs := rfl
@[simp] theorem State.onPort_decs : (s.onPort p).decs = s.decs := rfl
@[simp] theorem State.onPort_maskUnit : (s.onPort p).maskUnit = s.maskUnit := rfl
@[simp] theorem State.onPort_work : (s.onPort p).work = s.work := rfl
@[simp] theorem State.onPort_port : (s.onPort p).port = p := rfl
@[simp] theorem State.onPort_pending : (s.onPort p).pending = s.pending := rfl
@[simp] theorem State.onPort_responses : (s.onPort p).responses = s.responses := rfl
@[simp] theorem State.onPort_draws : (s.onPort p).draws = s.draws := rfl

end Fields

section Units
variable (s : State) (j k n : Nat) (u : EncUnit) (v : DecUnit) (w : Work) (p : Port) (r : Response)

@[simp] theorem State.enc_setEnc_self : (s.setEnc k u).enc k = u := by simp [State.enc, State.setEnc]
@[simp] theorem State.dec_setDec_self : (s.setDec k v).dec k = v := by simp [State.dec, State.setDec]

theorem State.enc_setEnc_other (h : j ≠ k) : (s.setEnc k u).enc j = s.enc j := bankRead_bankWrite_other h
theorem State.dec_setDec_other (h : j ≠ k) : (s.setDec k v).dec j = s.dec j := bankRead_bankWrite_other h

/-- Every encoder after one is written. -/
theorem State.enc_setEnc : (s.setEnc k u).enc j = if j = k then u else s.enc j := by
  split
  · next h => subst h; simp
  · next h => exact State.enc_setEnc_other s j k u h

/-- Every decoder after one is written. -/
theorem State.dec_setDec : (s.setDec k v).dec j = if j = k then v else s.dec j := by
  split
  · next h => subst h; simp
  · next h => exact State.dec_setDec_other s j k v h

@[simp] theorem State.dec_setEnc : (s.setEnc k u).dec j = s.dec j := rfl
@[simp] theorem State.enc_setDec : (s.setDec k v).enc j = s.enc j := rfl
@[simp] theorem State.enc_setWork : (s.setWork w).enc j = s.enc j := rfl
@[simp] theorem State.dec_setWork : (s.setWork w).dec j = s.dec j := rfl
@[simp] theorem State.enc_takeDraws : (s.takeDraws n).enc j = s.enc j := rfl
@[simp] theorem State.dec_takeDraws : (s.takeDraws n).dec j = s.dec j := rfl
@[simp] theorem State.enc_reply : (s.reply p r).enc j = s.enc j := rfl
@[simp] theorem State.dec_reply : (s.reply p r).dec j = s.dec j := rfl

@[simp] theorem State.enc_onPort : (s.onPort p).enc j = s.enc j := rfl
@[simp] theorem State.dec_onPort : (s.onPort p).dec j = s.dec j := rfl

/-- Writing an encoder keeps the canonical form. -/
theorem State.setEnc_canonical (h : bankWf EncUnit.neverReset s.encs = true) :
    bankWf EncUnit.neverReset (s.setEnc k u).encs = true := bankWf_bankWrite h

/-- Writing a decoder keeps the canonical form. -/
theorem State.setDec_canonical (h : bankWf DecUnit.neverReset s.decs = true) :
    bankWf DecUnit.neverReset (s.setDec k v).decs = true := bankWf_bankWrite h

end Units

end Sys2Proof.Machine
end

