-- ==== Sys2Proof/Laws/Ops.lean ====
section
/-! SUPPORT. What each shared operation of Machine/Ops.lean does to each field and unit, and what admission can answer. -/

namespace Sys2Proof.Machine

section Replies
variable (s : State) (p : Port) (j k : Nat) (kind : ErrorKind)

@[simp] theorem State.raise_work : (s.raise p kind).work = s.work := by cases p <;> rfl
@[simp] theorem State.raise_port : (s.raise p kind).port = s.port := by cases p <;> rfl
@[simp] theorem State.raise_pending : (s.raise p kind).pending = s.pending := by cases p <;> rfl
@[simp] theorem State.raise_draws : (s.raise p kind).draws = s.draws := by cases p <;> rfl
@[simp] theorem State.raise_maskUnit : (s.raise p kind).maskUnit = s.maskUnit := by cases p <;> rfl

/-- Entry to `Failed` of an encoder: phase and kind, nothing else of any encoder (R192). -/
@[simp] theorem State.enc_raise_enc :
    (s.raise (.enc k) kind).enc j = if j = k then { s.enc k with phase := .failed, err := some kind } else s.enc j := by
  simp [State.raise, State.enc_setEnc]

@[simp] theorem State.dec_raise_enc : (s.raise (.enc k) kind).dec j = s.dec j := rfl
@[simp] theorem State.raise_enc_responses :
    (s.raise (.enc k) kind).responses = s.responses ++ [(.enc k, .err kind)] := rfl

/-- Entry to `Failed` of a decoder: phase and kind, nothing else of any decoder (R192). -/
@[simp] theorem State.dec_raise_dec :
    (s.raise (.dec k) kind).dec j = if j = k then { s.dec k with phase := .failed, err := some kind } else s.dec j := by
  simp [State.raise, State.dec_setDec]

@[simp] theorem State.enc_raise_dec : (s.raise (.dec k) kind).enc j = s.enc j := rfl
@[simp] theorem State.raise_dec_responses :
    (s.raise (.dec k) kind).responses = s.responses ++ [(.dec k, .err kind)] := rfl

/-- `Dropped` is a reply and nothing else (R194). -/
@[simp] theorem State.drop_eq : s.drop p = s.reply p .dropped := rfl

/-- An encoder's reset is its fresh registers and the identifier frame (R220). -/
@[simp] theorem State.resetEnc_eq : s.resetEnc k = (s.setEnc k EncUnit.fresh).reply (.enc k) (.ok idFrame) := rfl

/-- A decoder's reset is its fresh registers (R221). -/
@[simp] theorem State.resetDec_eq (verify : Bool) :
    s.resetDec k verify = (s.setDec k (DecUnit.fresh verify)).reply (.dec k) (.ok []) := rfl

/-- Emitting appends to one encoder's output (R25). -/
@[simp] theorem State.emitEnc_eq (b : Bytes) :
    s.emitEnc k b = s.setEnc k { s.enc k with out := (s.enc k).out ++ b } := rfl

@[simp] theorem State.refuse_work : (s.refuse p).work = s.work := by cases p <;> rfl
@[simp] theorem State.refuse_port : (s.refuse p).port = s.port := by cases p <;> rfl
@[simp] theorem State.refuse_pending : (s.refuse p).pending = s.pending := by cases p <;> rfl
@[simp] theorem State.refuse_draws : (s.refuse p).draws = s.draws := by cases p <;> rfl

/-- A refusal is answered on its port. -/
@[simp] theorem State.refuse_responses : (s.refuse p).responses = s.responses ++ [(p, .refused)] := by cases p <;> rfl

@[simp] theorem State.refuse_maskUnit :
    (s.refuse p).maskUnit = if p = .mask then { protocolFault := true } else s.maskUnit := by
  cases p <;> simp [State.refuse]

/-- A refusal sets one encoder's `protocol_fault` at most (R41). -/
@[simp] theorem State.enc_refuse :
    (s.refuse p).enc j = if p = .enc j then { s.enc j with protocolFault := true } else s.enc j := by
  cases p with
  | enc k =>
    by_cases h : j = k
    · subst h; simp [State.refuse]
    · simp [State.refuse, State.enc_setEnc, h, Ne.symm h]
  | dec k => rfl
  | mask => rfl

/-- A refusal sets one decoder's `protocol_fault` at most (R41). -/
@[simp] theorem State.dec_refuse :
    (s.refuse p).dec j = if p = .dec j then { s.dec j with protocolFault := true } else s.dec j := by
  cases p with
  | dec k =>
    by_cases h : j = k
    · subst h; simp [State.refuse]
    · simp [State.refuse, State.dec_setDec, h, Ne.symm h]
  | enc k => rfl
  | mask => rfl

end Replies

section Canonical
variable {s : State} (p : Port) (k : Nat) (kind : ErrorKind)

theorem State.raise_canonical (he : bankWf EncUnit.neverReset s.encs = true)
    (hd : bankWf DecUnit.neverReset s.decs = true) :
    bankWf EncUnit.neverReset (s.raise p kind).encs = true ∧ bankWf DecUnit.neverReset (s.raise p kind).decs = true := by
  cases p
  · exact ⟨State.setEnc_canonical _ _ _ he, hd⟩
  · exact ⟨he, State.setDec_canonical _ _ _ hd⟩
  · exact ⟨he, hd⟩

theorem State.refuse_canonical (he : bankWf EncUnit.neverReset s.encs = true)
    (hd : bankWf DecUnit.neverReset s.decs = true) :
    bankWf EncUnit.neverReset (s.refuse p).encs = true ∧ bankWf DecUnit.neverReset (s.refuse p).decs = true := by
  cases p
  · exact ⟨State.setEnc_canonical _ _ _ he, hd⟩
  · exact ⟨he, State.setDec_canonical _ _ _ hd⟩
  · exact ⟨he, hd⟩

end Canonical

/-- What admission to an encoder answers: the body in `Open`, `Dropped` in `Failed`, else `Refused` on the port that has the packet. -/
theorem admitEnc_cases (s : State) (body : Nat → Host.Outcome State Fault Refusal) :
    (∃ k, s.port = .enc k ∧ (s.enc k).everReset = true ∧ (s.enc k).phase = .opened ∧ admitEnc s body = body k)
    ∨ (∃ k, s.port = .enc k ∧ (s.enc k).everReset = true ∧ (s.enc k).phase = .failed
        ∧ admitEnc s body = .next (s.drop s.port))
    ∨ ((∀ k, s.port = .enc k → (s.enc k).everReset = true → (s.enc k).phase = .closed)
        ∧ admitEnc s body = .next (s.refuse s.port)) := by
  unfold admitEnc
  cases hp : s.port with
  | enc k =>
    cases hr : (s.enc k).everReset <;> cases hf : (s.enc k).phase <;> simp_all
  | dec k => simp
  | mask => simp

/-- What admission to a decoder answers. -/
theorem admitDec_cases (s : State) (body : Nat → Host.Outcome State Fault Refusal) :
    (∃ k, s.port = .dec k ∧ (s.dec k).everReset = true ∧ (s.dec k).phase.isTerminal = false ∧ admitDec s body = body k)
    ∨ (∃ k, s.port = .dec k ∧ (s.dec k).everReset = true ∧ (s.dec k).phase = .failed
        ∧ admitDec s body = .next (s.drop s.port))
    ∨ ((∀ k, s.port = .dec k → (s.dec k).everReset = true → (s.dec k).phase = .closed)
        ∧ admitDec s body = .next (s.refuse s.port)) := by
  unfold admitDec
  cases hp : s.port with
  | dec k =>
    cases hr : (s.dec k).everReset <;> cases hf : (s.dec k).phase <;> simp_all [DecPhase.isTerminal]
  | enc k => simp
  | mask => simp

/-- Admission of a live encoder. -/
theorem admitEnc_live {s : State} {k : Nat} (body : Nat → Host.Outcome State Fault Refusal) (hp : s.port = .enc k)
    (hr : (s.enc k).everReset = true) (ho : (s.enc k).phase = .opened) : admitEnc s body = body k := by
  simp [admitEnc, hp, hr, ho]

/-- Admission of a live decoder. -/
theorem admitDec_live {s : State} {k : Nat} (body : Nat → Host.Outcome State Fault Refusal) (hp : s.port = .dec k)
    (hr : (s.dec k).everReset = true) (ho : (s.dec k).phase.isTerminal = false) : admitDec s body = body k := by
  cases hf : (s.dec k).phase <;> simp_all [admitDec, DecPhase.isTerminal]

end Sys2Proof.Machine
end

