-- ==== Sys2Proof/Laws/Frames.lean ====
section
/-! SUPPORT. The frame instructions seen as a function of the bytes: what one frame contributes, what a run of the frame loop leaves, and how
a parse goes on when more bytes arrive. -/

namespace Sys2Proof.Machine

/-- The frames of `data` from its start: whether an identifier was among them, the tuples, the bytes left over; or the first error. -/
def parseFrames : Nat → Bytes → Except ErrorKind (Bool × List DataTuple × Bytes)
  | 0, data => .ok (false, [], data)
  | n + 1, data =>
    match decodeFrame data with
    | .error _ => .ok (false, [], data)
    | .ok (i, rest) =>
      match frameContribution i with
      | .error kind => .error kind
      | .ok (ident, tuples) =>
        match parseFrames n rest with
        | .error kind => .error kind
        | .ok (f, ts, r) => .ok (ident || f, tuples ++ ts, r)

/-- The transient values after a parse of the bytes at `cur`. -/
def Work.after (w : Work) (f : Bool) (ts : List DataTuple) (r : Bytes) : Work :=
  { w with cur := w.data.length - r.length, batch := w.batch ++ ts, found := w.found || f }

/-- The state after a parse: new transient values, or the decoder in `Failed`. -/
def State.afterParse (s : State) : Except ErrorKind (Bool × List DataTuple × Bytes) → State
  | .ok (f, ts, r) => s.setWork (s.work.after f ts r)
  | .error kind => s.raiseInDelivery kind

theorem complete_iff_decodeFrame (data : Bytes) (c : Nat) :
    complete data c = true ↔ ∃ r, decodeFrame (data.drop c) = .ok r := by
  unfold complete decodeFrame
  rw [payloadLength_drop, List.length_drop, Nat.add_zero]
  constructor
  · intro h
    simp only [decide_eq_true_eq] at h
    rw [if_neg (by omega), if_neg (by omega)]
    exact ⟨_, rfl⟩
  · rintro ⟨r, h⟩
    split at h
    · cases h
    split at h
    · cases h
    simp only [decide_eq_true_eq]; omega

/-- The frame at `cur` is the one the frame decoder reads there. -/
theorem decodeFrame_at {data : Bytes} {c : Nat} {r : Instr × Bytes} (h : decodeFrame (data.drop c) = .ok r) :
    r.1 = frameInstr (byteAt data c) (memRead data (c + 4) (payloadLength data c))
    ∧ r.2 = data.drop (c + 4 + payloadLength data c) ∧ c + 4 + payloadLength data c ≤ data.length := by
  unfold decodeFrame at h
  rw [payloadLength_drop, List.length_drop, Nat.add_zero] at h
  split at h
  · cases h
  split at h
  · cases h
  cases h
  refine ⟨?_, ?_, by omega⟩
  · rw [byteAt_drop, memRead_drop]; rfl
  · rw [List.drop_drop, Nat.add_assoc]

/-- One frame (R146): the transient values advance past it with what it contributes, or its error ends the delivery. -/
theorem runFrame_eq {s : State} {r : Instr × Bytes} (h : decodeFrame (s.work.data.drop s.work.cur) = .ok r) :
    runFrame s = .next
      (match frameContribution r.1 with
      | .error kind => s.raiseInDelivery kind
      | .ok (ident, ts) => s.setWork (s.work.after ident ts r.2)) := by
  obtain ⟨h1, h2, h3⟩ := decodeFrame_at h
  have hlen : (memRead s.work.data (s.work.cur + 4) (payloadLength s.work.data s.work.cur)).length
      = payloadLength s.work.data s.work.cur := memRead_length (by omega)
  have hcur : s.work.data.length - r.2.length = s.work.cur + 4 + payloadLength s.work.data s.work.cur := by
    rw [h2, List.length_drop]; omega
  have hskip : s.skipFrame (memRead s.work.data (s.work.cur + 4) (payloadLength s.work.data s.work.cur))
      = s.setWork (s.work.after false [] r.2) := by
    simp [State.skipFrame, Work.advance, Work.after, hlen, hcur]
  have hrec (kind : DataKind) (p : Bytes)
      (hp : p = memRead s.work.data (s.work.cur + 4) (payloadLength s.work.data s.work.cur)) :
      s.recordFrame kind p = if p.length < 4 then s.raiseInDelivery .shortDataFrame
        else s.setWork (s.work.after false [⟨kind, checksumField p, blockField p⟩] r.2) := by
    unfold State.recordFrame
    split
    · rfl
    · simp [Work.advance, Work.after, hp, hlen, hcur]
  rw [h1]
  unfold runFrame frameInstr
  rcases classify_cases (byteAt s.work.data s.work.cur) with ⟨_, hc⟩ | ⟨_, hc⟩ | ⟨_, hc⟩ | ⟨_, hc⟩ | ⟨_, hc⟩ | ⟨_, hc⟩ <;>
    simp only [hc, frameContribution]
  · unfold execFrameStreamId
    split
    · simp [Work.advance, Work.after, hlen, hcur]
    · rfl
  · rw [execFrameCompressed, hrec _ _ rfl]; split <;> rfl
  · rw [execFrameUncompressed, hrec _ _ rfl]; split <;> rfl
  · rw [execFramePadding, hskip]
  · rw [execFrameSkippable, hskip]
  · rfl

theorem parseFrames_rest_length {n : Nat} {data : Bytes} {f : Bool} {ts : List DataTuple} {r : Bytes}
    (h : parseFrames n data = .ok (f, ts, r)) : ∃ k ≤ data.length, r = data.drop k := by
  induction n generalizing data f ts r with
  | zero => cases h; exact ⟨0, by omega, rfl⟩
  | succ n ih =>
    rw [parseFrames] at h
    split at h
    · cases h; exact ⟨0, by omega, rfl⟩
    next i rest hd =>
      split at h
      · cases h
      split at h
      · cases h
      next hp =>
        cases h
        obtain ⟨k, hk, rfl⟩ := ih hp
        obtain ⟨-, h2, h3⟩ := decodeFrame_at (data := data) (c := 0) (by simpa using hd)
        simp only at h2
        subst h2
        refine ⟨_, ?_, List.drop_drop⟩
        simp at hk; omega

/-- The frame loop (R144) is a parse of the bytes at `cur`. -/
theorem runFrames_eq {n : Nat} {s : State} (ha : s.work.active = true) (hc : s.work.cur ≤ s.work.data.length) :
    runFrames n s = .next (s.afterParse (parseFrames n (s.work.data.drop s.work.cur))) := by
  induction n generalizing s with
  | zero =>
    have : s.work.data.length - (s.work.data.length - s.work.cur) = s.work.cur := by omega
    simp [runFrames, parseFrames, State.afterParse, Work.after, this]
    rfl
  | succ n ih =>
    rw [runFrames, parseFrames]
    cases hd : decodeFrame (s.work.data.drop s.work.cur) with
    | error e =>
      have : complete s.work.data s.work.cur = false := by
        rw [Bool.eq_false_iff]
        intro hcm
        obtain ⟨r, hr⟩ := (complete_iff_decodeFrame _ _).1 hcm
        rw [hd] at hr; cases hr
      have h2 : s.work.data.length - (s.work.data.length - s.work.cur) = s.work.cur := by omega
      simp [this, State.afterParse, Work.after, h2]
      rfl
    | ok r =>
      obtain ⟨i, rest⟩ := r
      have hcm := (complete_iff_decodeFrame s.work.data s.work.cur).2 ⟨_, hd⟩
      obtain ⟨-, h2, h3⟩ := decodeFrame_at hd
      simp only at h2
      rw [ha, hcm, Bool.and_self, if_pos rfl, runFrame_eq hd]
      simp only
      cases hf : frameContribution i with
      | error kind =>
        simp only [State.afterParse]
        cases n with
        | zero => rfl
        | succ n => rw [runFrames]; simp [State.raiseInDelivery, Work.idle]
      | ok v =>
        obtain ⟨ident, ts⟩ := v
        have hlen : s.work.data.length - rest.length = s.work.cur + 4 + payloadLength s.work.data s.work.cur := by
          rw [h2, List.length_drop]; omega
        simp only
        rw [ih (by simpa [Work.after] using ha) (by simp [Work.after])]
        simp only [State.setWork_work]
        have hdrop : (s.work.after ident ts rest).data.drop (s.work.after ident ts rest).cur = rest := by
          simp only [Work.after]; rw [hlen, h2]
        rw [hdrop]
        cases hp : parseFrames n rest with
        | error kind => simp [State.afterParse, State.raiseInDelivery, Work.after, State.raise, State.setDec, State.reply,
            State.setWork, State.dec]
        | ok v =>
          obtain ⟨f, ts2, r⟩ := v
          simp [State.afterParse, Work.after, State.setWork, Bool.or_assoc]

/-- The head frame of `data` does not change when more bytes follow. -/
theorem decodeFrame_append {data : Bytes} {i : Instr} {rest : Bytes} (h : decodeFrame data = .ok (i, rest)) (more : Bytes) :
    decodeFrame (data ++ more) = .ok (i, rest ++ more) := by
  obtain ⟨t, p, h1, h2, h3⟩ := decodeFrame_inv h
  simp only at h1 h3
  rw [h3, h1, List.append_assoc]
  exact decodeFrame_encodeFrame _ _ _ h2

theorem decodeFrame_shorter {data : Bytes} {i : Instr} {rest : Bytes} (h : decodeFrame data = .ok (i, rest)) :
    rest.length + 4 ≤ data.length := by
  obtain ⟨t, p, -, -, h3⟩ := decodeFrame_inv h
  simp only at h3
  rw [h3]; simp; omega

/-- As many rounds as there are bytes are enough. -/
theorem parseFrames_fuel {n m : Nat} {data : Bytes} (hn : data.length ≤ n) (hm : data.length ≤ m) :
    parseFrames n data = parseFrames m data := by
  induction n generalizing m data with
  | zero =>
    have : data = [] := List.eq_nil_of_length_eq_zero (by omega)
    subst this
    cases m <;> rfl
  | succ n ih =>
    cases m with
    | zero =>
      have : data = [] := List.eq_nil_of_length_eq_zero (by omega)
      subst this
      rfl
    | succ m =>
      rw [parseFrames, parseFrames]
      split
      · rfl
      next i rest hd =>
        have := decodeFrame_shorter hd
        rw [ih (m := m) (by omega) (by omega)]

/-- What is left over after a parse is no complete frame (R30). -/
theorem parseFrames_rest_incomplete {n : Nat} {data : Bytes} {f : Bool} {ts : List DataTuple} {r : Bytes}
    (hn : data.length ≤ n) (h : parseFrames n data = .ok (f, ts, r)) : complete r 0 = false := by
  induction n generalizing data f ts r with
  | zero =>
    have : data = [] := List.eq_nil_of_length_eq_zero (by omega)
    subst this
    cases h; rfl
  | succ n ih =>
    rw [parseFrames] at h
    split at h
    next e hd =>
      cases h
      rw [Bool.eq_false_iff]
      intro hc
      obtain ⟨r, hr⟩ := (complete_iff_decodeFrame _ _).1 hc
      rw [List.drop_zero, hd] at hr
      cases hr
    next i rest hd =>
      split at h
      · cases h
      split at h
      · cases h
      next hp =>
        cases h
        have := decodeFrame_shorter hd
        exact ih (by omega) hp

/-- A parse error stays when more bytes follow (R164). -/
theorem parseFrames_append_error {n m : Nat} {data : Bytes} {kind : ErrorKind} (more : Bytes)
    (h : parseFrames n data = .error kind) (hm : (data ++ more).length ≤ m) :
    parseFrames m (data ++ more) = .error kind := by
  induction n generalizing m data with
  | zero => cases h
  | succ n ih =>
    rw [parseFrames] at h
    split at h
    · cases h
    next i rest hd =>
      have hs := decodeFrame_shorter hd
      cases m with
      | zero => rw [List.length_append] at hm; omega
      | succ m =>
        rw [parseFrames, decodeFrame_append hd]
        simp only
        split at h
        next k hk => cases h; rfl
        next ident ts hk =>
          split at h
          next k hp =>
            cases h
            rw [ih hp (by rw [List.length_append] at hm ⊢; omega)]
          · cases h

/-- A parse goes on where it stopped when more bytes follow (R144, R155, R164). -/
theorem parseFrames_append_ok {n m : Nat} {data : Bytes} {f : Bool} {ts : List DataTuple} {r : Bytes} (more : Bytes)
    (hn : data.length ≤ n) (h : parseFrames n data = .ok (f, ts, r)) (hm : (data ++ more).length ≤ m) :
    parseFrames m (data ++ more) =
      match parseFrames m (r ++ more) with
      | .error kind => .error kind
      | .ok (f2, ts2, r2) => .ok (f || f2, ts ++ ts2, r2) := by
  induction n generalizing m data f ts r with
  | zero =>
    cases h
    rcases parseFrames m (data ++ more) with _ | ⟨_, _, _⟩ <;> simp
  | succ n ih =>
    rw [parseFrames] at h
    split at h
    · cases h
      rcases parseFrames m (data ++ more) with _ | ⟨_, _, _⟩ <;> simp
    next i rest hd =>
      have hs := decodeFrame_shorter hd
      split at h
      · cases h
      next ident ts1 hk =>
        split at h
        · cases h
        next f1 ts2 r1 hp =>
          cases h
          cases m with
          | zero => rw [List.length_append] at hm; omega
          | succ m =>
            rw [parseFrames, decodeFrame_append hd]
            simp only [hk]
            have hrl : r.length ≤ rest.length := by
              obtain ⟨k, _, rfl⟩ := parseFrames_rest_length hp
              simp
            rw [ih (by omega) hp (m := m) (by simp at hm ⊢; omega)]
            rw [parseFrames_fuel (data := r ++ more) (n := m + 1) (m := m) (by simp at hm ⊢; omega)
              (by simp at hm ⊢; omega)]
            rcases parseFrames m (r ++ more) with _ | ⟨_, _, _⟩ <;> simp [Bool.or_assoc]

end Sys2Proof.Machine
end

