-- ==== Sys2Proof/Laws/Dec.lean ====
section
/-! SUPPORT. The decoder: a delivery as one function of the unit's registers and the chunk, and how two deliveries compose. -/

namespace Sys2Proof.Machine

/-- A decoder after an error (R192). -/
def DecUnit.failWith (u : DecUnit) (kind : ErrorKind) : DecUnit := { u with phase := .failed, err := some kind }

/-- What a delivery does to a live decoder: its registers after it, its response, the draws it takes (R141). -/
def receive (c : Collaborators) (draw : Nat) (chunk : Bytes) (u : DecUnit) : DecUnit × Response × Nat :=
  if missingIdentifier u.found (u.residual ++ chunk) then
    (u.failWith .missingStreamIdentifier, .err .missingStreamIdentifier, 0)
  else
    match parseFrames (u.residual ++ chunk).length (u.residual ++ chunk) with
    | .error kind => (u.failWith kind, .err kind, 0)
    | .ok (f, ts, r) =>
      match failingTuples c u.verify 0 ts with
      | first :: others => (u.failWith (pickedError c draw first others), .err (pickedError c draw first others), 1)
      | [] =>
        if exceedsCap c r then ({ u with capacityFault := true }, .refused, 0)
        else
          ({ u with residual := r, found := u.found || f, out := u.out ++ decodedBytes c u.verify ts,
                    phase := nextPhase (u.found || f) r }, .ok (decodedBytes c u.verify ts), 0)

/-- What a delivery comes to once its bytes are parsed: nothing before the batch is decoded, then its error, the refusal, or the commit
(R158-R160). -/
def settle (c : Collaborators) (draw : Nat) (u : DecUnit) :
    Except ErrorKind (Bool × List DataTuple × Bytes) → DecUnit × Response × Nat
  | .error kind => (u.failWith kind, .err kind, 0)
  | .ok (f, ts, r) =>
    match failingTuples c u.verify 0 ts with
    | first :: others => (u.failWith (pickedError c draw first others), .err (pickedError c draw first others), 1)
    | [] =>
      if exceedsCap c r then ({ u with capacityFault := true }, .refused, 0)
      else
        ({ u with residual := r, found := u.found || f, out := u.out ++ decodedBytes c u.verify ts,
                  phase := nextPhase (u.found || f) r }, .ok (decodedBytes c u.verify ts), 0)

/-- A delivery that passes the identifier check is settled by its parse (R141, R143). -/
theorem receive_settle {c : Collaborators} {draw : Nat} {chunk : Bytes} {u : DecUnit}
    (h : missingIdentifier u.found (u.residual ++ chunk) = false) :
    receive c draw chunk u
      = settle c draw u (parseFrames (u.residual ++ chunk).length (u.residual ++ chunk)) := by
  rw [receive, h, if_neg Bool.false_ne_true]
  rcases parseFrames (u.residual ++ chunk).length (u.residual ++ chunk) with _ | ⟨_, _, _⟩ <;> rfl

/-- A delivery writes one decoder, answers once, and leaves no transient value: every other part of the state is as before (R141, R56). -/
theorem deliver_eq (c : Collaborators) (k : Nat) (chunk : Bytes) (s : State) :
    deliver c k chunk s = .next
      ((((s.setDec k (receive c s.draws chunk (s.dec k)).1).reply (.dec k)
        (receive c s.draws chunk (s.dec k)).2.1).takeDraws (receive c s.draws chunk (s.dec k)).2.2).setWork Work.idle) := by
  unfold deliver receive
  simp only
  split
  · rfl
  · rw [runFrames_eq rfl (Nat.zero_le _)]
    have hd : (s.setWork (Work.start k ((s.dec k).residual ++ chunk) (s.dec k).found)).work.data.drop
        (s.setWork (Work.start k ((s.dec k).residual ++ chunk) (s.dec k).found)).work.cur
        = (s.dec k).residual ++ chunk := rfl
    rw [hd]
    simp only
    cases hp : parseFrames ((s.dec k).residual ++ chunk).length ((s.dec k).residual ++ chunk) with
    | error kind => rfl
    | ok v =>
      obtain ⟨f, ts, r⟩ := v
      obtain ⟨n, hn, rfl⟩ := parseFrames_rest_length hp
      have ha : ((s.setWork (Work.start k ((s.dec k).residual ++ chunk) (s.dec k).found)).afterParse
          (.ok (f, ts, ((s.dec k).residual ++ chunk).drop n))).work.active = true := rfl
      simp only [ha, if_true]
      have hres : ((s.dec k).residual ++ chunk).drop
          (((s.dec k).residual ++ chunk).length - (((s.dec k).residual ++ chunk).drop n).length)
          = ((s.dec k).residual ++ chunk).drop n := by
        congr 1; rw [List.length_drop]; omega
      unfold finishDelivery
      simp only [State.afterParse, State.setWork_work, Work.after, Work.start, List.nil_append, State.dec_setWork, hres]
      cases failingTuples c (s.dec k).verify 0 ts with
      | cons first others => rfl
      | nil => simp only; split <;> rfl

/-- `DEC_WRITE` to a live decoder (R141). -/
theorem decWrite_live (c : Collaborators) {s : State} {k : Nat} (chunk : Bytes) (hp : s.port = .dec k)
    (hr : (s.dec k).everReset = true) (ho : (s.dec k).phase.isTerminal = false) :
    decWrite c chunk s = deliver c k chunk s := by
  rw [decWrite, admitDec_live _ hp hr ho]

/-- No tuple fails exactly when every tuple decodes. -/
theorem failingTuples_eq_nil {c : Collaborators} {verify : Bool} {i : Nat} {ts : List DataTuple} :
    failingTuples c verify i ts = [] ↔ ∀ t ∈ ts, ∃ d, decodeTuple c verify t = .ok d := by
  induction ts generalizing i with
  | nil => simp [failingTuples]
  | cons t rest ih =>
    rw [failingTuples]
    cases h : decodeTuple c verify t with
    | ok d => simp [h, ih]
    | error e => simp [h]

/-- A failing tuple is one of the batch with its own error. -/
theorem mem_failingTuples {c : Collaborators} {verify : Bool} {i : Nat} {ts : List DataTuple} {x : FailedTuple}
    (h : x ∈ failingTuples c verify i ts) : x.tuple ∈ ts ∧ decodeTuple c verify x.tuple = .error x.error := by
  induction ts generalizing i with
  | nil => simp [failingTuples] at h
  | cons t rest ih =>
    rw [failingTuples] at h
    cases hd : decodeTuple c verify t with
    | ok d =>
      rw [hd] at h
      exact ⟨List.mem_cons_of_mem _ (ih h).1, (ih h).2⟩
    | error e =>
      rw [hd] at h
      rcases List.mem_cons.1 h with rfl | h
      · exact ⟨List.mem_cons_self, hd⟩
      · exact ⟨List.mem_cons_of_mem _ (ih h).1, (ih h).2⟩

/-- The error reported is one of the failing tuples' (R158). -/
theorem pickedError_mem (c : Collaborators) (draw : Nat) (first : FailedTuple) (others : List FailedTuple) :
    ∃ x ∈ first :: others, pickedError c draw first others = x.error := by
  refine ⟨_, ?_, rfl⟩
  rw [List.getD_eq_getElem _ _ (by simpa using Nat.mod_lt _ (Nat.succ_pos _))]
  exact List.getElem_mem _

theorem failingTuples_append_nil {c : Collaborators} {verify : Bool} {i j : Nat} {a b : List DataTuple} :
    failingTuples c verify i (a ++ b) = [] ↔ failingTuples c verify i a = [] ∧ failingTuples c verify j b = [] := by
  simp only [failingTuples_eq_nil, List.mem_append]
  constructor
  · exact fun h => ⟨fun t ht => h t (.inl ht), fun t ht => h t (.inr ht)⟩
  · rintro ⟨h1, h2⟩ t (ht | ht)
    · exact h1 t ht
    · exact h2 t ht

theorem decodedBytes_append {c : Collaborators} {verify : Bool} {a b : List DataTuple} :
    decodedBytes c verify (a ++ b) = decodedBytes c verify a ++ decodedBytes c verify b := by
  induction a with
  | nil => rfl
  | cons t rest ih =>
    rw [List.cons_append, decodedBytes, decodedBytes]
    cases decodeTuple c verify t <;> simp [ih]

/-- A tuple is recorded only after an identifier, in a stream that passes the identifier check (R163). -/
theorem parseFrames_identifier_first {n : Nat} {data : Bytes} {f : Bool} {ts : List DataTuple} {r : Bytes}
    (hm : missingIdentifier false data = false) (h : parseFrames n data = .ok (f, ts, r)) (hf : f = false) :
    ts = [] ∧ r = data := by
  cases n with
  | zero => cases h; exact ⟨rfl, rfl⟩
  | succ n =>
    rw [parseFrames] at h
    split at h
    · cases h; exact ⟨rfl, rfl⟩
    next i rest hd =>
      exfalso
      have hne : data ≠ [] := by
        have := decodeFrame_shorter hd
        rintro rfl; simp at this
      have hff : byteAt data 0 = 0xFF#8 := by simpa [missingIdentifier, hne] using hm
      obtain ⟨h1, -, -⟩ := decodeFrame_at (data := data) (c := 0) (by simpa using hd)
      rw [hff] at h1
      simp only [frameInstr, classify_identifier] at h1
      rw [h1] at h
      simp only [frameContribution] at h
      split at h
      · cases h
      next ident tuples hfo =>
        split at hfo
        · cases hfo
          split at h
          · cases h
          · cases h; simp at hf
        · cases hfo

end Sys2Proof.Machine
end

