-- ==== Sys2Proof/Laws/Enc.lean ====
section
/-! SUPPORT. The encoder: the blocks of a delivery, the frame of a block, and what `ENC_WRITE` does to a live encoder. -/

namespace Sys2Proof.Machine

theorem blockAt_eq (chunk : Bytes) (k : Nat) : blockAt chunk k = (chunk.drop (k * maxBlock)).take maxBlock := by
  unfold blockAt memRead
  rw [← List.length_drop, ← List.take_eq_take_min]

theorem take_succ_blocks (chunk : Bytes) (k : Nat) :
    chunk.take (k * maxBlock) ++ blockAt chunk k = chunk.take ((k + 1) * maxBlock) := by
  rw [blockAt_eq, Nat.succ_mul, List.take_add]

/-- The first `n` blocks are the first `n * 65536` bytes (R112). -/
theorem blocks_flatten (chunk : Bytes) (n : Nat) :
    ((List.range n).map (blockAt chunk)).flatten = chunk.take (n * maxBlock) := by
  induction n with
  | zero => simp
  | succ n ih => rw [List.range_succ, List.map_append, List.flatten_append, ih]; simpa using take_succ_blocks chunk n

/-- No byte of a delivery is lost, doubled or moved by the splitting (R112). -/
theorem splitBlocks_flatten (chunk : Bytes) : (splitBlocks chunk).flatten = chunk := by
  rw [splitBlocks, blocks_flatten]
  apply List.take_of_length_le
  unfold blockCount maxBlock
  omega

theorem blockAt_length (chunk : Bytes) (k : Nat) : (blockAt chunk k).length = min maxBlock (chunk.length - k * maxBlock) := by
  rw [blockAt_eq]; simp

/-- Every block of a delivery has 1 to 65536 bytes (R112). -/
theorem splitBlocks_length {chunk b : Bytes} (h : b ∈ splitBlocks chunk) : 1 ≤ b.length ∧ b.length ≤ maxBlock := by
  simp only [splitBlocks, List.mem_map, List.mem_range, blockCount] at h
  obtain ⟨k, hk, rfl⟩ := h
  rw [blockAt_length]
  unfold maxBlock at *
  omega

/-- The payload of a block's frame. -/
def framePayload (c : Collaborators) (block compressed : Bytes) : Bytes :=
  pack32 (maskOf c block) ++ (selectFormat block compressed).2

theorem dataFrame_eq (c : Collaborators) (block compressed : Bytes) :
    dataFrame c block compressed = encodeFrame (selectFormat block compressed).1 (framePayload c block compressed) := by
  simp [dataFrame, encodeFrame, framePayload, Nat.add_comm]

/-- The block bytes of a frame are never longer than the original block (R82). -/
theorem selectFormat_length (block compressed : Bytes) : (selectFormat block compressed).2.length ≤ block.length := by
  unfold selectFormat formatThreshold
  split
  · exact le_refl _
  · simp only; omega

/-- A block's frame always fits the 24-bit length (R116). -/
theorem framePayload_fits (c : Collaborators) {block : Bytes} (compressed : Bytes) (h : block.length ≤ maxBlock) :
    (framePayload c block compressed).length < 2 ^ 24 := by
  have := selectFormat_length block compressed
  simp [framePayload]; unfold maxBlock at h; omega

/-- `ENC_WRITE` to a live encoder (R111, R118). -/
theorem encWrite_live (c : Collaborators) {s : State} {k : Nat} (chunk : Bytes) (hp : s.port = .enc k)
    (hr : (s.enc k).everReset = true) (ho : (s.enc k).phase = .opened) :
    encWrite c chunk s =
      if anyCompressFails c s.draws (blockCount chunk.length) then
        .next ((s.takeDraws (blockCount chunk.length)).raise (.enc k) .compressionFailure)
      else
        .next (((s.takeDraws (blockCount chunk.length)).emitEnc k (deliveryFrames c chunk)).reply (.enc k)
          (.ok (deliveryFrames c chunk))) := by
  rw [encWrite, admitEnc_live _ hp hr ho]

/-- A delivery none of whose calls fails (R113). -/
theorem anyCompressFails_eq_false {c : Collaborators} {first n : Nat}
    (h : ∀ j < n, (c.compressMayFail && c.compressDraw (first + j)) = false) : anyCompressFails c first n = false := by
  rw [anyCompressFails, List.any_eq_false]
  intro j hj
  rw [compressFails, h j (List.mem_range.1 hj)]
  exact Bool.false_ne_true

/-- One compressor call for each block (R111). -/
theorem splitBlocks_count (chunk : Bytes) : (splitBlocks chunk).length = blockCount chunk.length := by
  rw [splitBlocks, List.length_map, List.length_range]

end Sys2Proof.Machine
end

