-- ==== Sys2Proof/Laws/Dispatch.lean ====
section
/-! SUPPORT. What one command can do, said once: every outcome of every command, with the conditions it needs. -/

namespace Sys2Proof.Machine

/-- The outcomes of a command, one constructor each (R86, R111, R120, R141, R162, R194, R220, R221, R100). -/
inductive CommandEffect (c : Collaborators) (s : State) : Instr → State → Prop
  | refused (i : Instr) : CommandEffect c s i (s.refuse s.port)
  | droppedEnc (i : Instr) (k : Nat) (hp : s.port = .enc k) (hr : (s.enc k).everReset = true)
      (hf : (s.enc k).phase = .failed) (hi : i = .encEnd [] ∨ ∃ chunk, i = .encWrite chunk) :
      CommandEffect c s i (s.drop s.port)
  | droppedDec (i : Instr) (k : Nat) (hp : s.port = .dec k) (hr : (s.dec k).everReset = true)
      (hf : (s.dec k).phase = .failed) (hi : i = .decEnd [] ∨ ∃ chunk, i = .decWrite chunk) :
      CommandEffect c s i (s.drop s.port)
  | encReset (k : Nat) (hp : s.port = .enc k) : CommandEffect c s (.encReset []) (s.resetEnc k)
  | encWriteFails (k : Nat) (chunk : Bytes) (hl : LiveEnc s k)
      (hc : anyCompressFails c s.draws (blockCount chunk.length) = true) :
      CommandEffect c s (.encWrite chunk)
        ((s.takeDraws (blockCount chunk.length)).raise (.enc k) .compressionFailure)
  | encWriteEmits (k : Nat) (chunk : Bytes) (hl : LiveEnc s k)
      (hc : anyCompressFails c s.draws (blockCount chunk.length) = false) :
      CommandEffect c s (.encWrite chunk)
        (((s.takeDraws (blockCount chunk.length)).emitEnc k (deliveryFrames c chunk)).reply (.enc k)
          (.ok (deliveryFrames c chunk)))
  | encEnd (k : Nat) (hl : LiveEnc s k) :
      CommandEffect c s (.encEnd []) ((s.setEnc k { s.enc k with phase := .closed }).reply (.enc k) (.ok []))
  | decReset (k : Nat) (verify : Bool) (operand : Bytes) (hp : s.port = .dec k)
      (ho : verifyOperand operand = some verify) : CommandEffect c s (.decReset operand) (s.resetDec k verify)
  | decWrite (k : Nat) (chunk : Bytes) (hl : LiveDec s k) :
      CommandEffect c s (.decWrite chunk)
        ((((s.setDec k (receive c s.draws chunk (s.dec k)).1).reply (.dec k)
          (receive c s.draws chunk (s.dec k)).2.1).takeDraws (receive c s.draws chunk (s.dec k)).2.2).setWork Work.idle)
  | decEnd (k : Nat) (hl : LiveDec s k) (hr : (s.dec k).residual = []) :
      CommandEffect c s (.decEnd []) ((s.setDec k { s.dec k with phase := .closed }).reply (.dec k) (.ok []))
  | decEndTruncated (k : Nat) (hl : LiveDec s k) (hr : (s.dec k).residual ≠ []) :
      CommandEffect c s (.decEnd []) (s.raise (.dec k) .truncatedStream)
  | mask (data : Bytes) (hp : s.port = .mask) :
      CommandEffect c s (.mask data) (s.reply .mask (.okMask (maskOf c data)))

/-- Every command answers a next state, and it is one of `CommandEffect`'s. -/
theorem execWith_command (c : Collaborators) {i : Instr} (s : State) (hi : i.isFrame = false) :
    ∃ t, execWith c i s = .next t ∧ CommandEffect c s i t := by
  cases i with
  | frameStreamId _ | frameCompressed _ | frameUncompressed _ | frameUnskippable _ _ | frameSkippable _ _ | framePadding _ =>
    simp [Instr.isFrame] at hi
  | encReset op =>
    simp only [execWith, exec, execEncReset]
    cases hp : s.port with
    | enc k =>
      simp only
      split
      · next h => subst h; exact ⟨_, rfl, .encReset k hp⟩
      · next h => exact ⟨_, rfl, hp ▸ .refused _⟩
    | dec k => exact ⟨_, rfl, hp ▸ .refused _⟩
    | mask => exact ⟨_, rfl, hp ▸ .refused _⟩
  | encWrite chunk =>
    simp only [execWith]
    rcases admitEnc_cases s _ with ⟨k, hp, hr, ho, h⟩ | ⟨k, hp, hr, ho, h⟩ | ⟨_, h⟩
    · rw [encWrite_live c chunk hp hr ho]
      split
      · next hc => exact ⟨_, rfl, .encWriteFails k chunk ⟨hp, hr, ho⟩ hc⟩
      · next hc => exact ⟨_, rfl, .encWriteEmits k chunk ⟨hp, hr, ho⟩ (by simpa using hc)⟩
    · exact ⟨_, h, .droppedEnc _ k hp hr ho (.inr ⟨_, rfl⟩)⟩
    · exact ⟨_, h, .refused _⟩
  | encEnd op =>
    simp only [execWith, exec, execEncEnd]
    split
    next h =>
      subst h
      rcases admitEnc_cases s
        (fun k => .next ((s.setEnc k { s.enc k with phase := .closed }).reply (.enc k) (.ok []))) with
        ⟨k, hp, hr, ho, h⟩ | ⟨k, hp, hr, ho, h⟩ | ⟨_, h⟩
      · exact ⟨_, h, .encEnd k ⟨hp, hr, ho⟩⟩
      · exact ⟨_, h, .droppedEnc _ k hp hr ho (.inl rfl)⟩
      · exact ⟨_, h, .refused _⟩
    · exact ⟨_, rfl, .refused _⟩
  | decReset op =>
    simp only [execWith, exec, execDecReset]
    cases hp : s.port with
    | dec k =>
      simp only
      split
      · next v h => exact ⟨_, rfl, .decReset k v op hp h⟩
      · exact ⟨_, rfl, hp ▸ .refused _⟩
    | enc k => exact ⟨_, rfl, hp ▸ .refused _⟩
    | mask => exact ⟨_, rfl, hp ▸ .refused _⟩
  | decWrite chunk =>
    simp only [execWith, decWrite]
    rcases admitDec_cases s (fun k => deliver c k chunk s) with ⟨k, hp, hr, ho, h⟩ | ⟨k, hp, hr, ho, h⟩ | ⟨_, h⟩
    · rw [h, deliver_eq]; exact ⟨_, rfl, .decWrite k chunk ⟨hp, hr, ho⟩⟩
    · exact ⟨_, h, .droppedDec _ k hp hr ho (.inr ⟨_, rfl⟩)⟩
    · exact ⟨_, h, .refused _⟩
  | decEnd op =>
    simp only [execWith, exec, execDecEnd]
    split
    next h =>
      subst h
      rcases admitDec_cases s
        (fun k => if (s.dec k).residual = [] then
            .next ((s.setDec k { s.dec k with phase := .closed }).reply (.dec k) (.ok []))
          else .next (s.raise (.dec k) .truncatedStream)) with
        ⟨k, hp, hr, ho, h⟩ | ⟨k, hp, hr, ho, h⟩ | ⟨_, h⟩
      · rw [h]
        split
        · next hres => exact ⟨_, rfl, .decEnd k ⟨hp, hr, ho⟩ hres⟩
        · next hres => exact ⟨_, rfl, .decEndTruncated k ⟨hp, hr, ho⟩ hres⟩
      · exact ⟨_, h, .droppedDec _ k hp hr ho (.inl rfl)⟩
      · exact ⟨_, h, .refused _⟩
    · exact ⟨_, rfl, .refused _⟩
  | mask data =>
    simp only [execWith, maskCommand]
    cases hp : s.port with
    | mask => exact ⟨_, rfl, .mask data hp⟩
    | enc k => exact ⟨_, rfl, hp ▸ .refused _⟩
    | dec k => exact ⟨_, rfl, hp ▸ .refused _⟩

/-- The outcome of a command is one of `CommandEffect`'s. -/
theorem execWith_cases {c : Collaborators} {i : Instr} {s t : State} (hi : i.isFrame = false)
    (h : execWith c i s = .next t) : CommandEffect c s i t := by
  obtain ⟨u, hu, he⟩ := execWith_command c s hi
  rw [h] at hu
  cases hu
  exact he

end Sys2Proof.Machine
end

