-- ==== Sys2Proof/Laws/Claims.lean ====
section
/-! SUPPORT. The claims' vocabulary: the frame `OnlyUnit` of each shared operation, and what a delivery leaves of a decoder. -/

namespace Sys2Proof.Machine

theorem OnlyUnit.refl (p : Port) (s : State) : OnlyUnit p s s := ⟨fun _ _ => rfl, fun _ _ => rfl, fun _ => rfl, rfl, rfl⟩

theorem OnlyUnit.setEnc (s : State) (k : Nat) (u : EncUnit) : OnlyUnit (.enc k) s (s.setEnc k u) :=
  ⟨fun j hj => State.enc_setEnc_other s j k u fun h => hj (h ▸ rfl), fun _ _ => rfl, fun _ => rfl, rfl, rfl⟩

theorem OnlyUnit.setDec (s : State) (k : Nat) (u : DecUnit) : OnlyUnit (.dec k) s (s.setDec k u) :=
  ⟨fun _ _ => rfl, fun j hj => State.dec_setDec_other s j k u fun h => hj (h ▸ rfl), fun _ => rfl, rfl, rfl⟩

section
variable {p : Port} {s t : State}

theorem OnlyUnit.reply (h : OnlyUnit p s t) (q : Port) (r : Response) : OnlyUnit p s (t.reply q r) :=
  ⟨h.encs, h.decs, h.maskUnit, h.port, h.pending⟩

theorem OnlyUnit.takeDraws (h : OnlyUnit p s t) (n : Nat) : OnlyUnit p s (t.takeDraws n) :=
  ⟨h.encs, h.decs, h.maskUnit, h.port, h.pending⟩

theorem OnlyUnit.setWork (h : OnlyUnit p s t) (w : Work) : OnlyUnit p s (t.setWork w) :=
  ⟨h.encs, h.decs, h.maskUnit, h.port, h.pending⟩

theorem OnlyUnit.afterDraws {n : Nat} (h : OnlyUnit p (s.takeDraws n) t) : OnlyUnit p s t :=
  ⟨h.encs, h.decs, h.maskUnit, h.port, h.pending⟩

theorem OnlyUnit.afterWork {w : Work} (h : OnlyUnit p (s.setWork w) t) : OnlyUnit p s t :=
  ⟨h.encs, h.decs, h.maskUnit, h.port, h.pending⟩

end

/-- A command changes no status word but that of its own unit (10_state.md R22, R46). -/
theorem OnlyUnit.statusWord {p q : Port} {s t : State} (h : OnlyUnit p s t) (hq : p ≠ q) :
    t.statusWord q = s.statusWord q := by
  cases q with
  | enc k => rw [State.statusWord_enc, State.statusWord_enc, h.encs k hq]
  | dec k => rw [State.statusWord_dec, State.statusWord_dec, h.decs k hq]
  | mask => rw [State.statusWord_mask, State.statusWord_mask, h.maskUnit hq]

theorem OnlyUnit.raise (p : Port) (s : State) (kind : ErrorKind) : OnlyUnit p s (s.raise p kind) := by
  cases p
  · exact (OnlyUnit.setEnc _ _ _).reply _ _
  · exact (OnlyUnit.setDec _ _ _).reply _ _
  · exact OnlyUnit.refl _ _

theorem OnlyUnit.refuse (p : Port) (s : State) : OnlyUnit p s (s.refuse p) := by
  cases p
  · exact (OnlyUnit.setEnc _ _ _).reply _ _
  · exact (OnlyUnit.setDec _ _ _).reply _ _
  · exact ⟨fun _ _ => rfl, fun _ _ => rfl, fun h => absurd rfl h, rfl, rfl⟩

/-- `DEC_WRITE` to a live decoder: its unit and its response are the delivery's, and nothing else is written (R141). -/
theorem decWrite_receive (c : Collaborators) {k : Nat} (chunk : Bytes) {s : State} (hl : LiveDec s k) {u : DecUnit}
    {r : Response} {n : Nat} (h : receive c s.draws chunk (s.dec k) = (u, r, n)) :
    ∃ t, decWrite c chunk s = .next t ∧ t.dec k = u ∧ Answered (.dec k) r s t ∧ OnlyUnit (.dec k) s t
      ∧ t.work = Work.idle ∧ t.draws = s.draws + n := by
  refine ⟨(((s.setDec k u).reply (.dec k) r).takeDraws n).setWork Work.idle, ?_, by simp, by simp [Answered],
    (((OnlyUnit.setDec _ _ _).reply _ _).takeDraws _).setWork _, rfl, by simp⟩
  rw [decWrite_live c chunk hl.1 hl.2.1 hl.2.2, deliver_eq, h]

/-- An identifier in place passes the check of R143. -/
theorem missingIdentifier_inPlace {found : Bool} {data : Bytes} (h : IdentifierInPlace found data) :
    missingIdentifier found data = false := by
  rcases h with h | h | h <;> simp [missingIdentifier, h]

section
variable {c : Collaborators} {draw : Nat} {chunk : Bytes} {u : DecUnit}

/-- A delivery that answers an error leaves the phase and the kind (R192). -/
theorem receive_of_err {kind : ErrorKind} (h : (receive c draw chunk u).2.1 = .err kind) :
    (receive c draw chunk u).1 = u.failWith kind := by
  unfold receive at h ⊢
  split at h
  · simp_all
  · split at h
    · simp_all
    · split at h
      · simp_all
      · split at h <;> simp_all

/-- A delivery writes `verify` never and clears `found` never (R29, R31). -/
theorem receive_flags :
    (receive c draw chunk u).1.verify = u.verify ∧ (u.found = true → (receive c draw chunk u).1.found = true) := by
  unfold receive
  split
  · simp [DecUnit.failWith]
  · split
    · simp [DecUnit.failWith]
    · split
      · simp [DecUnit.failWith]
      · split
        · simp
        · exact ⟨rfl, fun h => by simp [h]⟩

/-- A delivery appends to the output what its response carries (R33, R42). -/
theorem receive_out : (receive c draw chunk u).1.out = u.out ++ (receive c draw chunk u).2.1.bytes := by
  unfold receive
  split
  · simp [DecUnit.failWith, Response.bytes]
  · split
    · simp [DecUnit.failWith, Response.bytes]
    · split
      · simp [DecUnit.failWith, Response.bytes]
      · split <;> simp [Response.bytes]

end

end Sys2Proof.Machine
end

