-- ==== Sys2Proof/Laws/Invariant.lean ====
section
/-! SUPPORT. The invariant of a unit's registers under each thing that can happen to it: a refusal, an error, a delivery. -/

namespace Sys2Proof.Machine

/-- A refusal keeps an encoder's invariant (10_state.md R41). -/
theorem EncUnit.Inv.refuse {u : EncUnit} (h : u.Inv) : ({ u with protocolFault := true } : EncUnit).Inv :=
  ⟨h.startsWithIdentifier, h.errInFailed, fun hr => by rw [h.untouchedBeforeReset hr]⟩

section
variable {c : Collaborators} {u : DecUnit}

/-- A refusal keeps a decoder's invariant (10_state.md R41). -/
theorem DecUnit.Inv.refuse (h : u.Inv c) : ({ u with protocolFault := true } : DecUnit).Inv c :=
  ⟨h.errInFailed, h.errIsDecoders, h.livePhase, h.closedIsDrained, h.residualIncomplete, h.residualStartsIdentifier,
    h.noOutputBeforeIdentifier, h.residualFits, fun hr => by rw [h.untouchedBeforeReset hr]⟩

/-- No frame raises the encoder's error kind. -/
theorem frameContribution_error {i : Instr} {kind : ErrorKind} (h : frameContribution i = .error kind) :
    kind ≠ .compressionFailure := by
  cases i <;> simp only [frameContribution] at h <;> (try split at h) <;> cases h <;> simp

theorem parseFrames_error {n : Nat} {data : Bytes} {kind : ErrorKind} (h : parseFrames n data = .error kind) :
    kind ≠ .compressionFailure := by
  induction n generalizing data with
  | zero => cases h
  | succ n ih =>
    rw [parseFrames] at h
    split at h
    · cases h
    split at h
    · next hk => cases h; exact frameContribution_error hk
    split at h
    · next hk => cases h; exact ih hk
    · cases h

theorem decodeTuple_error {verify : Bool} {x : DataTuple} {kind : ErrorKind}
    (h : decodeTuple c verify x = .error kind) : kind ≠ .compressionFailure := by
  unfold decodeTuple at h
  split at h
  · cases h; simp
  · split at h <;> cases h; simp

theorem pickedError_ne {verify : Bool} {ts : List DataTuple} {first : FailedTuple} {others : List FailedTuple}
    (draw : Nat) (h : failingTuples c verify 0 ts = first :: others) :
    pickedError c draw first others ≠ .compressionFailure := by
  obtain ⟨x, hx, he⟩ := pickedError_mem c draw first others
  rw [← h] at hx
  rw [he]
  exact decodeTuple_error (mem_failingTuples hx).2

/-- An error keeps a decoder's invariant (60_exceptions.md R192). -/
theorem DecUnit.Inv.failWith (h : u.Inv c) (hr : u.everReset = true) {kind : ErrorKind} (hk : kind ≠ .compressionFailure) :
    (u.failWith kind).Inv c :=
  ⟨by simp [DecUnit.failWith], by simpa [DecUnit.failWith] using hk, by simp [DecUnit.failWith, DecPhase.isTerminal],
    by simp [DecUnit.failWith], h.residualIncomplete, h.residualStartsIdentifier, h.noOutputBeforeIdentifier,
    h.residualFits, fun hn => by simp [DecUnit.failWith, hr] at hn⟩

/-- A live decoder holds no error (10_state.md R32). -/
theorem DecUnit.Inv.err_live (h : u.Inv c) (hl : u.phase.isTerminal = false) : u.err = none := by
  by_contra hne
  rw [h.errInFailed.1 hne] at hl
  cases hl

theorem nextPhase_live (found : Bool) (residual : Bytes) : (nextPhase found residual).isTerminal = false := by
  unfold nextPhase
  split
  · rfl
  · split <;> rfl

/-- A delivery keeps a live decoder's invariant (R141, R163). -/
theorem DecUnit.Inv.receive (h : u.Inv c) (hr : u.everReset = true) (hl : u.phase.isTerminal = false) (draw : Nat)
    (chunk : Bytes) : (Machine.receive c draw chunk u).1.Inv c := by
  by_cases hm : missingIdentifier u.found (u.residual ++ chunk) = true
  · rw [Machine.receive, if_pos hm]; exact h.failWith hr (by simp)
  rw [receive_settle (by simpa using hm)]
  cases hp : parseFrames (u.residual ++ chunk).length (u.residual ++ chunk) with
  | error kind => exact h.failWith hr (parseFrames_error hp)
  | ok v =>
    obtain ⟨f, ts, r⟩ := v
    unfold settle
    simp only
    cases hft : failingTuples c u.verify 0 ts with
    | cons first others => exact h.failWith hr (pickedError_ne draw hft)
    | nil =>
      simp only
      split
      · exact ⟨h.errInFailed, h.errIsDecoders, h.livePhase, h.closedIsDrained, h.residualIncomplete,
          h.residualStartsIdentifier, h.noOutputBeforeIdentifier, h.residualFits, fun hn => by simp [hr] at hn⟩
      next hx =>
      have hlive := nextPhase_live (u.found || f) r
      refine ⟨?_, by simp [h.err_live hl], fun _ => rfl, fun hc => ?_, parseFrames_rest_incomplete (le_refl _) hp, ?_, ?_,
        by simpa using hx, fun hn => by simp [hr] at hn⟩
      · simp only [h.err_live hl, ne_eq, not_true, false_iff]
        intro hc; rw [hc] at hlive; cases hlive
      · simp only at hc; rw [hc] at hlive; cases hlive
      · simp only [Bool.or_eq_false_iff]
        rintro ⟨h1, h2⟩ h3
        rw [h1] at hm
        obtain ⟨-, rfl⟩ := parseFrames_identifier_first (by simpa using hm) hp h2
        simpa [missingIdentifier, h3] using hm
      · simp only [Bool.or_eq_false_iff]
        rintro ⟨h1, h2⟩
        rw [h1] at hm
        obtain ⟨rfl, -⟩ := parseFrames_identifier_first (by simpa using hm) hp h2
        simp [decodedBytes, h.noOutputBeforeIdentifier h1]

end

end Sys2Proof.Machine
end

