-- ==== Sys2Proof/Laws/PerInstr.lean ====
section
/-! SUPPORT. One fact about the encoding of each instruction: its first byte selects it and its length field says how long it is. -/

namespace Sys2Proof.Laws.EncodedHead

/-- What the encoding of an encodable instruction starts with: a frame's type code and length give the frame back, a command's code and
operand length give the command back. -/
def Statement (i : Instr) : Prop :=
  i.encodable = true →
    if i.isFrame then
      ∃ t p, encode i = encodeFrame t p ∧ p.length < 2 ^ 24 ∧ frameInstr t p = i
    else
      ∃ t p, encode i = encodePacket t p ∧ p.length < 2 ^ 32 ∧ commandInstr t p = some i

theorem frameStreamId (p : Bytes) : Statement (.frameStreamId p) := fun h =>
  ⟨_, p, rfl, by simpa [Instr.encodable, payloadFits] using h, by simp [frameInstr]⟩

theorem frameCompressed (p : Bytes) : Statement (.frameCompressed p) := fun h =>
  ⟨_, p, rfl, by simpa [Instr.encodable, payloadFits] using h, by simp [frameInstr]⟩

theorem frameUncompressed (p : Bytes) : Statement (.frameUncompressed p) := fun h =>
  ⟨_, p, rfl, by simpa [Instr.encodable, payloadFits] using h, by simp [frameInstr]⟩

theorem frameUnskippable (t : Byte) (p : Bytes) : Statement (.frameUnskippable t p) := fun h => by
  simp only [Instr.encodable, payloadFits, Bool.and_eq_true, decide_eq_true_eq] at h
  exact ⟨t, p, rfl, h.2, by simp [frameInstr, classify_unskippable h.1]⟩

theorem frameSkippable (t : Byte) (p : Bytes) : Statement (.frameSkippable t p) := fun h => by
  simp only [Instr.encodable, payloadFits, Bool.and_eq_true, decide_eq_true_eq] at h
  exact ⟨t, p, rfl, h.2, by simp [frameInstr, classify_skippable h.1]⟩

theorem framePadding (p : Bytes) : Statement (.framePadding p) := fun h =>
  ⟨_, p, rfl, by simpa [Instr.encodable, payloadFits] using h, by simp [frameInstr]⟩

theorem encReset (p : Bytes) : Statement (.encReset p) := fun h =>
  ⟨_, p, rfl, by simpa [Instr.encodable, operandFits] using h, rfl⟩

theorem encWrite (p : Bytes) : Statement (.encWrite p) := fun h =>
  ⟨_, p, rfl, by simpa [Instr.encodable, operandFits] using h, rfl⟩

theorem encEnd (p : Bytes) : Statement (.encEnd p) := fun h =>
  ⟨_, p, rfl, by simpa [Instr.encodable, operandFits] using h, rfl⟩

theorem decReset (p : Bytes) : Statement (.decReset p) := fun h =>
  ⟨_, p, rfl, by simpa [Instr.encodable, operandFits] using h, rfl⟩

theorem decWrite (p : Bytes) : Statement (.decWrite p) := fun h =>
  ⟨_, p, rfl, by simpa [Instr.encodable, operandFits] using h, rfl⟩

theorem decEnd (p : Bytes) : Statement (.decEnd p) := fun h =>
  ⟨_, p, rfl, by simpa [Instr.encodable, operandFits] using h, rfl⟩

theorem mask (p : Bytes) : Statement (.mask p) := fun h =>
  ⟨_, p, rfl, by simpa [Instr.encodable, operandFits] using h, rfl⟩

end Sys2Proof.Laws.EncodedHead
end

