-- ==== Sys2Proof/Laws/Stream.lean ====
section
/-! SUPPORT. Streams of whole frames: how a stretch of frames that raise nothing, an incomplete tail and a frame with an error parse. -/

namespace Sys2Proof.Machine

/-- The type code and payload an encodable frame is laid out with. -/
theorem encode_frame {i : Instr} (hf : i.isFrame = true) (he : i.encodable = true) :
    ∃ t p, encode i = encodeFrame t p ∧ p.length < 2 ^ 24 ∧ frameInstr t p = i := by
  cases i with
  | frameStreamId p => exact Sys2Proof.Laws.EncodedHead.frameStreamId p he
  | frameCompressed p => exact Sys2Proof.Laws.EncodedHead.frameCompressed p he
  | frameUncompressed p => exact Sys2Proof.Laws.EncodedHead.frameUncompressed p he
  | frameUnskippable t p => exact Sys2Proof.Laws.EncodedHead.frameUnskippable t p he
  | frameSkippable t p => exact Sys2Proof.Laws.EncodedHead.frameSkippable t p he
  | framePadding p => exact Sys2Proof.Laws.EncodedHead.framePadding p he
  | encReset _ | encWrite _ | encEnd _ | decReset _ | decWrite _ | decEnd _ | mask _ => simp [Instr.isFrame] at hf

/-- An incomplete frame stops the parse (R144). -/
theorem parseFrames_incomplete {tail : Bytes} (h : complete tail 0 = false) (n : Nat) :
    parseFrames n tail = .ok (false, [], tail) := by
  cases n with
  | zero => rfl
  | succ n =>
    rw [parseFrames]
    cases hd : decodeFrame tail with
    | error e => rfl
    | ok r =>
      have := (complete_iff_decodeFrame tail 0).2 ⟨r, by simpa using hd⟩
      rw [h] at this; cases this

theorem seesIdentifier_cons {i : Instr} {ident : Bool} {ts : List DataTuple} (rest : List Instr)
    (h : frameContribution i = .ok (ident, ts)) : seesIdentifier (i :: rest) = (ident || seesIdentifier rest) := by
  simp [seesIdentifier, h]

theorem batchOf_cons {i : Instr} {ident : Bool} {ts : List DataTuple} (rest : List Instr)
    (h : frameContribution i = .ok (ident, ts)) : batchOf (i :: rest) = ts ++ batchOf rest := by
  simp [batchOf, h]

/-- Whole frames that raise nothing are consumed in order (R144, R154); the parse goes on with what follows them. -/
theorem parseFrames_good {frames : List Instr} (hg : GoodFrames frames) {n : Nat} {tail : Bytes}
    (hn : ((frames.map encode).flatten ++ tail).length ≤ n) :
    parseFrames n ((frames.map encode).flatten ++ tail) =
      match parseFrames n tail with
      | .error kind => .error kind
      | .ok (f, ts, r) => .ok (seesIdentifier frames || f, batchOf frames ++ ts, r) := by
  induction frames generalizing n with
  | nil =>
    simp only [List.map_nil, List.flatten_nil, List.nil_append, seesIdentifier, List.any_nil, Bool.false_or, batchOf,
      List.flatMap_nil]
    rcases parseFrames n tail with _ | ⟨_, _, _⟩ <;> rfl
  | cons i rest ih =>
    obtain ⟨hf, he, ⟨ident, ts⟩, hc⟩ := hg i List.mem_cons_self
    obtain ⟨t, p, h1, h2, h3⟩ := encode_frame hf he
    have hd := decodeFrame_encodeFrame t p ((rest.map encode).flatten ++ tail) h2
    rw [← h1, h3] at hd
    have hs := decodeFrame_shorter hd
    rw [List.map_cons, List.flatten_cons, List.append_assoc] at hn ⊢
    cases n with
    | zero => omega
    | succ n =>
      rw [parseFrames, hd]
      simp only [hc]
      rw [ih (fun j hj => hg j (List.mem_cons_of_mem _ hj)) (by omega), seesIdentifier_cons rest hc, batchOf_cons rest hc,
        parseFrames_fuel (data := tail) (n := n + 1) (m := n) (by rw [List.length_append] at hs; omega)
          (by rw [List.length_append] at hs; omega)]
      rcases parseFrames n tail with _ | ⟨_, _, _⟩ <;> simp [Bool.or_assoc]

/-- A frame with an error ends the parse, whatever follows (R147, R150, R153). -/
theorem parseFrames_bad {bad : Instr} {kind : ErrorKind} (hf : bad.isFrame = true) (he : bad.encodable = true)
    (hc : frameContribution bad = .error kind) {n : Nat} (hn : 0 < n) (rest : Bytes) :
    parseFrames n (encode bad ++ rest) = .error kind := by
  cases n with
  | zero => omega
  | succ n =>
    obtain ⟨t, p, h1, h2, rfl⟩ := encode_frame hf he
    rw [h1, parseFrames, decodeFrame_encodeFrame _ _ _ h2]
    simp only [hc]

end Sys2Proof.Machine
end

