-- ==== Sys2Proof/Laws/Runs.lean ====
section
/-! SUPPORT. Runs of several deliveries: after any number of them a decoder is where one parse of all their bytes puts it. -/

namespace Sys2Proof.Machine

variable {c : Collaborators} {verify : Bool}

/-- What the whole of a stream's bytes so far comes to: its parse, or nothing when a delivery of it has failed (R143, R147, R158). -/
def streamSoFar (c : Collaborators) (verify : Bool) (data : Bytes) : Option (Bool × List DataTuple × Bytes) :=
  if missingIdentifier false data then none
  else match parseFrames data.length data with
    | .error _ => none
    | .ok v => if failingTuples c verify 0 v.2.1 = [] then some v else none

/-- A decoder that has been given `data` since its reset, in any deliveries. -/
def Tracks (c : Collaborators) (verify : Bool) (data : Bytes) (u : DecUnit) : Prop :=
  u.everReset = true ∧ u.verify = verify ∧
  match streamSoFar c verify data with
  | none => u.phase = .failed
  | some (f, ts, r) =>
    u.phase.isTerminal = false ∧ u.found = f ∧ u.residual = r ∧ u.out = decodedBytes c verify ts

theorem missingIdentifier_append {data : Bytes} (more : Bytes) (h : missingIdentifier false data = true) :
    missingIdentifier false (data ++ more) = true := by
  cases data with
  | nil => simp [missingIdentifier] at h
  | cons a l => simpa [missingIdentifier] using h

theorem streamSoFar_some {data : Bytes} {f : Bool} {ts : List DataTuple} {r : Bytes}
    (h : streamSoFar c verify data = some (f, ts, r)) :
    missingIdentifier false data = false ∧ parseFrames data.length data = .ok (f, ts, r)
    ∧ failingTuples c verify 0 ts = [] := by
  unfold streamSoFar at h
  split at h
  · cases h
  next hm =>
  cases hp : parseFrames data.length data with
  | error kind => simp [hp] at h
  | ok w =>
    simp only [hp] at h
    split at h
    · cases h; exact ⟨by simpa using hm, rfl, by assumption⟩
    · cases h

/-- A stream that has failed stays failed when more bytes come (R194). -/
theorem streamSoFar_none_append {data : Bytes} (more : Bytes) (h : streamSoFar c verify data = none) :
    streamSoFar c verify (data ++ more) = none := by
  unfold streamSoFar at h ⊢
  split at h
  · next hm => rw [if_pos (missingIdentifier_append more hm)]
  split
  · rfl
  cases hp : parseFrames data.length data with
  | error kind => rw [parseFrames_append_error more hp (le_refl _)]
  | ok w =>
    obtain ⟨f, ts, r⟩ := w
    rw [parseFrames_append_ok more (le_refl _) hp (le_refl _)]
    simp only [hp] at h
    split at h
    · cases h
    next hf =>
    cases parseFrames (data ++ more).length (r ++ more) with
    | error kind => rfl
    | ok w2 => exact if_neg fun h2 => hf (failingTuples_append_nil (j := 0) |>.1 h2).1

/-- One more delivery (R164). -/
theorem Tracks.receive (hc : c.residualCap = none) {data : Bytes} {u : DecUnit} (ht : Tracks c verify data u)
    (hl : u.phase.isTerminal = false) (draw : Nat) (more : Bytes) :
    Tracks c verify (data ++ more) (Machine.receive c draw more u).1 := by
  obtain ⟨h1, h2, h3⟩ := ht
  cases hg : streamSoFar c verify data with
  | none => rw [hg] at h3; simp only at h3; rw [h3] at hl; cases hl
  | some w =>
    obtain ⟨f, ts, r⟩ := w
    rw [hg] at h3
    obtain ⟨h4, h5, h6, h7⟩ := h3
    obtain ⟨hm, hp, hf⟩ := streamSoFar_some hg
    have happ := parseFrames_append_ok more (le_refl _) hp (le_refl (data ++ more).length)
    rw [show parseFrames (data ++ more).length (r ++ more) = parseFrames (r ++ more).length (r ++ more) by
      obtain ⟨k, hk, rfl⟩ := parseFrames_rest_length hp
      exact parseFrames_fuel (by simp) (le_refl _)] at happ
    have hmiss : missingIdentifier u.found (u.residual ++ more) = missingIdentifier false (data ++ more) := by
      rw [h5, h6]
      cases f with
      | true =>
        cases data with
        | nil => simp [parseFrames] at hp
        | cons a l => simpa [missingIdentifier] using hm
      | false => rw [(parseFrames_identifier_first hm hp rfl).2]
    by_cases hmm : missingIdentifier false (data ++ more) = true
    · rw [Machine.receive, if_pos (hmiss.trans hmm)]
      exact ⟨h1, h2, by rw [streamSoFar, if_pos hmm]; rfl⟩
    rw [receive_settle (hmiss.trans (by simpa using hmm)), h6]
    unfold Tracks streamSoFar
    rw [if_neg hmm, happ]
    cases parseFrames (r ++ more).length (r ++ more) with
    | error kind => exact ⟨h1, h2, rfl⟩
    | ok w2 =>
      obtain ⟨f2, ts2, r2⟩ := w2
      simp only [settle, h2]
      cases hf2 : failingTuples c verify 0 ts2 with
      | cons a l =>
        have hne : failingTuples c verify 0 (ts ++ ts2) ≠ [] := fun h => by
          rw [(failingTuples_append_nil (j := 0) |>.1 h).2] at hf2; cases hf2
        rw [if_neg hne]
        exact ⟨h1, h2, rfl⟩
      | nil =>
        rw [if_pos ((failingTuples_append_nil (j := 0)).2 ⟨hf, hf2⟩)]
        simp only [show exceedsCap c r2 = false by simp [exceedsCap, hc], Bool.false_eq_true, if_false]
        refine ⟨h1, trivial, ?_, by simp [h5], by simp, by simp [h7, decodedBytes_append]⟩
        unfold nextPhase
        split
        · rfl
        · split <;> rfl

/-- Deliveries to one decoder, one after another (R164). -/
theorem runOn_decWrites (hc : c.residualCap = none) (k : Nat) (pieces : List Bytes) (rest : List Instr) {data : Bytes}
    {s : State} (ht : Tracks c verify data (s.dec k)) :
    ∃ t, runOn c (.dec k) (pieces.map .decWrite ++ rest) s = runOn c (.dec k) rest t
      ∧ Tracks c verify (data ++ pieces.flatten) (t.dec k) := by
  induction pieces generalizing s data with
  | nil => exact ⟨s, rfl, by simpa using ht⟩
  | cons p pieces ih =>
    simp only [List.map_cons, List.cons_append, runOn, execWith]
    have hport : (s.onPort (.dec k)).dec k = s.dec k := rfl
    by_cases hl : (s.dec k).phase.isTerminal = false
    · obtain ⟨t, h1, h2, -⟩ :=
        decWrite_receive c p (s := s.onPort (.dec k)) (k := k) ⟨rfl, ht.1, hl⟩ rfl
      rw [h1]
      obtain ⟨t', h3, h4⟩ := ih (data := data ++ p) (s := t) (by rw [h2]; exact ht.receive hc hl _ _)
      exact ⟨t', h3, by simpa using h4⟩
    · have hf : streamSoFar c verify data = none ∧ (s.dec k).phase = .failed := by
        have h3 := ht.2.2
        cases hg : streamSoFar c verify data with
        | none => rw [hg] at h3; exact ⟨rfl, h3⟩
        | some w => rw [hg] at h3; exact absurd h3.1 hl
      have hd : decWrite c p (s.onPort (.dec k)) = .next ((s.onPort (.dec k)).drop (.dec k)) := by
        have hp : (s.onPort (.dec k)).port = .dec k := rfl
        simp only [decWrite, admitDec, hp, hport, ht.1, hf.2, if_true]
      rw [hd]
      obtain ⟨t, h1, h2⟩ := ih (data := data ++ p) (s := (s.onPort (.dec k)).drop (.dec k))
        ⟨ht.1, ht.2.1, by rw [streamSoFar_none_append p hf.1]; exact hf.2⟩
      exact ⟨t, h1, by simpa using h2⟩

end Sys2Proof.Machine
end

