-- ==== Sys2Proof/Tests/Slice0.lean ====
section
/-! SUPPORT. The model's own tests.  Expected values are those of 95_test_vectors.md (each test names its vector) or are written out by
hand from the rule named; and, for every obligation with hypotheses, a witness that meets them. -/

namespace Sys2Proof.Tests
open Sys2Proof.Machine

/-! ### Well-formedness: one ill-formed term for each check -/

theorem test_wf_reset_operand : (Instr.encReset [0x00#8]).wellFormed = false := by decide
theorem test_wf_end_operand : (Instr.encEnd [0x00#8]).wellFormed = false ∧ (Instr.decEnd [0x01#8]).wellFormed = false := by decide
theorem test_wf_verify_operand :
    (Instr.decReset [0x02#8]).wellFormed = false ∧ (Instr.decReset []).wellFormed = false
    ∧ (Instr.decReset [0x01#8]).wellFormed = true := by decide
theorem test_wf_unskippable_code :
    (Instr.frameUnskippable 0x01#8 []).wellFormed = false ∧ (Instr.frameUnskippable 0x80#8 []).wellFormed = false
    ∧ (Instr.frameUnskippable 0x7F#8 []).wellFormed = true := by decide
theorem test_wf_skippable_code :
    (Instr.frameSkippable 0x7F#8 []).wellFormed = false ∧ (Instr.frameSkippable 0xFE#8 []).wellFormed = false
    ∧ (Instr.frameSkippable 0x80#8 []).wellFormed = true := by decide
theorem test_wf_payload_length :
    (Instr.framePadding (List.replicate (2 ^ 24) 0x00#8)).wellFormed = false := by
  rw [Instr.wellFormed, payloadFits, List.length_replicate]; decide
theorem test_wf_operand_length : (Instr.mask (List.replicate (2 ^ 32) 0x00#8)).wellFormed = false := by
  rw [Instr.wellFormed, operandFits, List.length_replicate]; decide

/-! ### Decoding: words written out from 30_encoding.md R70, R73, R75, R84 -/

/-- Vector D-2's frame `A`: type 01, length 7, checksum `6E 57 F1 21`, "abc". -/
theorem test_decode_uncompressed :
    decodeFrame [0x01#8, 0x07#8, 0x00#8, 0x00#8, 0x6E#8, 0x57#8, 0xF1#8, 0x21#8, 0x61#8, 0x62#8, 0x63#8]
      = .ok (.frameUncompressed [0x6E#8, 0x57#8, 0xF1#8, 0x21#8, 0x61#8, 0x62#8, 0x63#8], []) := by decide
/-- Vector E-4's frame `C16`, with two bytes of a next frame after it. -/
theorem test_decode_compressed :
    decodeFrame [0x00#8, 0x09#8, 0x00#8, 0x00#8, 0xA2#8, 0x78#8, 0xE9#8, 0x6E#8, 0xAA#8, 0x61#8, 0x10#8, 0x00#8, 0x00#8,
      0xFE#8, 0x02#8]
      = .ok (.frameCompressed [0xA2#8, 0x78#8, 0xE9#8, 0x6E#8, 0xAA#8, 0x61#8, 0x10#8, 0x00#8, 0x00#8],
        [0xFE#8, 0x02#8]) := by decide
theorem test_decode_identifier :
    decodeFrame [0xFF#8, 0x06#8, 0x00#8, 0x00#8, 0x73#8, 0x4E#8, 0x61#8, 0x50#8, 0x70#8, 0x59#8]
      = .ok (.frameStreamId [0x73#8, 0x4E#8, 0x61#8, 0x50#8, 0x70#8, 0x59#8], []) := by decide
/-- The edges of the reserved ranges (R77; vectors D-10, D-10b). -/
theorem test_decode_range_edges :
    decodeFrame [0x02#8, 0x00#8, 0x00#8, 0x00#8] = .ok (.frameUnskippable 0x02#8 [], [])
    ∧ decodeFrame [0x7F#8, 0x00#8, 0x00#8, 0x00#8] = .ok (.frameUnskippable 0x7F#8 [], [])
    ∧ decodeFrame [0x80#8, 0x00#8, 0x00#8, 0x00#8] = .ok (.frameSkippable 0x80#8 [], [])
    ∧ decodeFrame [0xFD#8, 0x01#8, 0x00#8, 0x00#8, 0x00#8] = .ok (.frameSkippable 0xFD#8 [0x00#8], [])
    ∧ decodeFrame [0xFE#8, 0x00#8, 0x00#8, 0x00#8] = .ok (.framePadding [], []) := by decide
theorem test_decode_incomplete :
    decodeFrame [0xFF#8, 0x06#8, 0x00#8] = .error .frameHeaderIncomplete
    ∧ decodeFrame [0x10#8, 0x03#8, 0x00#8, 0x00#8, 0xAA#8] = .error .framePayloadIncomplete := by decide
/-- Packets of programs P1 and P2. -/
theorem test_decode_packets :
    decodePacket [0x10#8, 0x00#8, 0x00#8, 0x00#8, 0x00#8] = .ok (.encReset [])
    ∧ decodePacket [0x11#8, 0x03#8, 0x00#8, 0x00#8, 0x00#8, 0x61#8, 0x62#8, 0x63#8] = .ok (.encWrite [0x61#8, 0x62#8, 0x63#8])
    ∧ decodePacket [0x12#8, 0x00#8, 0x00#8, 0x00#8, 0x00#8] = .ok (.encEnd [])
    ∧ decodePacket [0x20#8, 0x01#8, 0x00#8, 0x00#8, 0x00#8, 0x01#8] = .ok (.decReset [0x01#8])
    ∧ decodePacket [0x21#8, 0x02#8, 0x00#8, 0x00#8, 0x00#8, 0xFF#8, 0x06#8] = .ok (.decWrite [0xFF#8, 0x06#8])
    ∧ decodePacket [0x22#8, 0x00#8, 0x00#8, 0x00#8, 0x00#8] = .ok (.decEnd [])
    ∧ decodePacket [0x30#8, 0x01#8, 0x00#8, 0x00#8, 0x00#8, 0x61#8] = .ok (.mask [0x61#8]) := by decide
/-- Illegal packets (R86): an unknown code, a short packet, a wrong length. -/
theorem test_decode_packet_errors :
    decodePacket [0x13#8, 0x00#8, 0x00#8, 0x00#8, 0x00#8] = .error (.unknownCommand 0x13#8)
    ∧ decodePacket [0x10#8, 0x00#8] = .error .packetTooShort
    ∧ decodePacket [0x11#8, 0x02#8, 0x00#8, 0x00#8, 0x00#8, 0x61#8] = .error .operandLengthMismatch := by decide

/-- The first byte of each row of opcode_table.json, in the table's order, but for the two rows whose word is a command code too (log 12). -/
def tableWords : List (Nat × Instr) :=
  [(0xFF, .frameStreamId []), (0x00, .frameCompressed []), (0x01, .frameUncompressed []),
   (0x02, .frameUnskippable 0x02#8 []), (0x04, .frameUnskippable 0x04#8 []), (0x08, .frameUnskippable 0x08#8 []),
   (0x13, .frameUnskippable 0x13#8 []), (0x23, .frameUnskippable 0x23#8 []), (0x40, .frameUnskippable 0x40#8 []),
   (0x80, .frameSkippable 0x80#8 []), (0xC0, .frameSkippable 0xC0#8 []), (0xE0, .frameSkippable 0xE0#8 []),
   (0xF0, .frameSkippable 0xF0#8 []), (0xF8, .frameSkippable 0xF8#8 []), (0xFC, .frameSkippable 0xFC#8 []),
   (0xFE, .framePadding [])]
  ++ [(0x10, .encReset []), (0x11, .encWrite []), (0x12, .encEnd []), (0x20, .decReset []), (0x21, .decWrite []),
   (0x22, .decEnd []), (0x30, .mask [])]

def isNext (o : Host.Outcome State Fault Refusal) : Bool :=
  match o with
  | .next _ => true
  | .fault _ => false
  | .refused _ => false

theorem test_table_words_decode : tableWords.all (fun x => decide (decodeTableWord 8 x.1 = some x.2)) = true := by decide
theorem test_table_words_run : tableWords.all (fun x => isNext (step (State.reset.withFetchWord 8 x.1))) = true := by
  decide +kernel

/-! ### Test collaborators (95_test_vectors.md, "TC") -/

def tcCompress : Bytes → Bytes
  | [] => [0xBB#8]
  | x :: rest =>
    if rest.all (fun y => decide (y = x)) && decide (rest.length + 1 < 2 ^ 24) then [0xAA#8, x] ++ pack24 (rest.length + 1)
    else 0xBB#8 :: x :: rest

def tcDecompress : Bytes → Option Bytes
  | [] => none
  | tag :: rest =>
    if tag = 0xAA#8 ∧ rest.length = 4 then some (List.replicate (le24 rest 1) (byteAt rest 0))
    else if tag = 0xBB#8 then some rest
    else none

def tc : Collaborators where
  crc32c := crc32cStandard
  compressFn := tcCompress
  compressMayFail := false
  compressDraw := fun _ => true
  decompressFn := tcDecompress
  pickError := fun _ _ => 0
  residualCap := none

/-- The same with a compressor that fails and a residual buffer of three bytes (vectors E-6, D-23). -/
def tcFailing : Collaborators := { tc with compressMayFail := true, residualCap := some 3 }

/-- A block of encoder 0 and decoder 0, the command at port `p`. -/
def small (p : Port) (e : EncUnit) (d : DecUnit) : State := { State.reset with encs := [(0, e)], decs := [(0, d)], port := p }

def after (o : Host.Outcome State Fault Refusal) : State :=
  match o with
  | .next t => t
  | .fault _ => State.reset
  | .refused _ => State.reset

theorem next_after {o : Host.Outcome State Fault Refusal} (h : isNext o = true) : o = .next (after o) := by
  cases o with
  | next t => rfl
  | fault r => cases r
  | refused r => cases h

/-- The response a command gives on a small block. -/
def reply (o : Host.Outcome State Fault Refusal) : Option Response := (after o).responses.getLast?.map Prod.snd

def abc : Bytes := [0x61#8, 0x62#8, 0x63#8]
/-- Frame `A` of section 4. -/
def frameA : Bytes := [0x01#8, 0x07#8, 0x00#8, 0x00#8, 0x6E#8, 0x57#8, 0xF1#8, 0x21#8, 0x61#8, 0x62#8, 0x63#8]
/-- Frame `C16`. -/
def frameC16 : Bytes :=
  [0x00#8, 0x09#8, 0x00#8, 0x00#8, 0xA2#8, 0x78#8, 0xE9#8, 0x6E#8, 0xAA#8, 0x61#8, 0x10#8, 0x00#8, 0x00#8]
/-- Frame `BAD`. -/
def frameBad : Bytes := [0x01#8, 0x07#8, 0x00#8, 0x00#8, 0x00#8, 0x00#8, 0x00#8, 0x00#8, 0x61#8, 0x62#8, 0x63#8]
/-- Frame `BADC`. -/
def frameBadC : Bytes := [0x00#8, 0x06#8, 0x00#8, 0x00#8, 0x00#8, 0x00#8, 0x00#8, 0x00#8, 0xCC#8, 0xDD#8]

def freshDec : State := small (.dec 0) EncUnit.fresh (DecUnit.fresh true)
def freshEnc : State := small (.enc 0) EncUnit.fresh (DecUnit.fresh true)
def streamingDec : DecUnit := { DecUnit.fresh true with phase := .streaming, found := true }

/-! ### MASK (tables M-1, M-2, vector L1-4) -/

theorem test_mask_transform :
    maskTransform 0x00007FFF#32 = 0xA280EAD8#32 ∧ maskTransform 0x12345678#32 = 0x4F730F40#32
    ∧ maskTransform 0xB9C9E082#32 = 0x63885E6B#32 := by decide

theorem test_mask_command :
    reply (execWith tc (.mask [0x31#8, 0x32#8, 0x33#8, 0x34#8, 0x35#8, 0x36#8, 0x37#8, 0x38#8, 0x39#8])
      (small .mask EncUnit.fresh (DecUnit.fresh true))) = some (.okMask 0xC78AB0E5#32) := by decide +kernel

/-! ### ENC (table TH, vectors E-1 to E-8) -/

theorem test_enc_reset :
    reply (exec (.encReset []) freshEnc) = some (.ok [0xFF#8, 0x06#8, 0x00#8, 0x00#8, 0x73#8, 0x4E#8, 0x61#8, 0x50#8, 0x70#8, 0x59#8])
    ∧ encStatus ((after (exec (.encReset []) freshEnc)).enc 0) = 0x0000#16 := by decide +kernel
/-- An operand byte makes the packet illegal (R86). -/
theorem test_enc_reset_illegal :
    reply (exec (.encReset [0x00#8]) freshEnc) = some .refused
    ∧ ((after (exec (.encReset [0x00#8]) freshEnc)).enc 0).protocolFault = true := by decide +kernel

theorem test_format_threshold :
    [(1, 0), (1, 1), (7, 6), (7, 7), (8, 6), (8, 7), (9, 7), (9, 8), (16, 13), (16, 14), (65536, 57343), (65536, 57344)].map
      (fun x => decide (formatThreshold x.1 ≤ x.2)) = [false, true, false, true, false, true, false, true, false, true, false, true] := by
  decide
theorem test_block_count :
    [0, 1, 65535, 65536, 65537, 99999, 131072, 131073].map blockCount = [0, 1, 1, 1, 2, 2, 2, 3] := by decide
/-- Vectors E-3 and E-4. -/
theorem test_enc_write :
    reply (execWith tc (.encWrite abc) freshEnc) = some (.ok frameA)
    ∧ reply (execWith tc (.encWrite (List.replicate 16 0x61#8)) freshEnc) = some (.ok frameC16) := by decide +kernel
/-- Vector E-6, with one block. -/
theorem test_enc_write_fails :
    reply (execWith tcFailing (.encWrite [0x78#8]) freshEnc) = some (.err .compressionFailure)
    ∧ encStatus ((after (execWith tcFailing (.encWrite [0x78#8]) freshEnc)).enc 0) = 0x0062#16
    ∧ ((after (execWith tcFailing (.encWrite [0x78#8]) freshEnc)).enc 0).out = idFrame := by decide +kernel

/-- Program P1: the end of the empty stream. -/
theorem test_enc_end :
    reply (exec (.encEnd []) freshEnc) = some (.ok [])
    ∧ encStatus ((after (exec (.encEnd []) freshEnc)).enc 0) = 0x0001#16 := by decide +kernel
/-- Vectors E-7 and E-8. -/
theorem test_enc_end_terminal :
    reply (exec (.encEnd []) (small (.enc 0) { EncUnit.fresh with phase := .failed, err := some .compressionFailure }
      (DecUnit.fresh true))) = some .dropped
    ∧ reply (exec (.encEnd []) (small (.enc 0) { EncUnit.fresh with phase := .closed } (DecUnit.fresh true))) = some .refused := by
  decide +kernel

/-! ### Frames -/

/-- A delivery in progress on a streaming decoder 0, at cursor 10. -/
def inDelivery : State :=
  (small (.dec 0) EncUnit.fresh streamingDec).setWork { Work.start 0 [] true with cur := 10 }

/-- Vectors D-1 and D-6. -/
theorem test_frame_stream_id :
    (after (exec (.frameStreamId [0x73#8, 0x4E#8, 0x61#8, 0x50#8, 0x70#8, 0x59#8]) freshDec)).work.found = true
    ∧ reply (exec (.frameStreamId [0x73#8, 0x4E#8, 0x61#8, 0x50#8, 0x70#8, 0x5A#8]) freshDec)
      = some (.err .invalidStreamIdentifier) := by decide +kernel
/-- R148: the first four payload bytes are the checksum, little-endian. -/
theorem test_frame_compressed :
    (after (exec (.frameCompressed [0xA2#8, 0x78#8, 0xE9#8, 0x6E#8, 0xAA#8]) inDelivery)).work.batch
      = [⟨.compressed, 0x6EE978A2#32, [0xAA#8]⟩]
    ∧ (after (exec (.frameCompressed [0xA2#8, 0x78#8, 0xE9#8, 0x6E#8, 0xAA#8]) inDelivery)).work.cur = 19 := by decide +kernel
/-- Vector D-12b. -/
theorem test_frame_compressed_short : reply (exec (.frameCompressed []) inDelivery) = some (.err .shortDataFrame) := by decide +kernel
/-- R149's worked example. -/
theorem test_frame_uncompressed :
    (after (exec (.frameUncompressed [0x6E#8, 0x57#8, 0xF1#8, 0x21#8, 0x61#8, 0x62#8, 0x63#8]) inDelivery)).work.batch
      = [⟨.uncompressed, 0x21F1576E#32, abc⟩] := by decide +kernel
/-- Vector D-12. -/
theorem test_frame_uncompressed_short :
    reply (exec (.frameUncompressed [0xAA#8, 0xBB#8, 0xCC#8]) inDelivery) = some (.err .shortDataFrame) := by decide +kernel
/-- Vector D-10. -/
theorem test_frame_unskippable :
    reply (exec (.frameUnskippable 0x7F#8 []) inDelivery) = some (.err .unskippableFrame)
    ∧ decStatus ((after (exec (.frameUnskippable 0x7F#8 []) inDelivery)).dec 0) = 0x031C#16 := by decide +kernel
/-- Vector D-9: nothing but the cursor moves. -/
theorem test_frame_skippable :
    after (exec (.frameSkippable 0xFD#8 [0x00#8]) inDelivery) = inDelivery.setWork { inDelivery.work with cur := 15 } := by decide +kernel
theorem test_frame_padding :
    after (exec (.framePadding [0xAA#8, 0xBB#8]) inDelivery) = inDelivery.setWork { inDelivery.work with cur := 16 } := by
  decide +kernel

/-! ### DEC (vectors of section 4, program P4) -/

theorem test_dec_reset :
    reply (exec (.decReset [0x01#8]) (small (.dec 0) EncUnit.fresh streamingDec)) = some (.ok [])
    ∧ decStatus ((after (exec (.decReset [0x01#8]) (small (.dec 0) EncUnit.fresh streamingDec))).dec 0) = 0x0010#16 := by
  decide +kernel
theorem test_dec_reset_illegal : reply (exec (.decReset [0x02#8]) freshDec) = some .refused := by decide +kernel

/-- Vectors D-2, D-9, D-14b, D-24: what a delivery to a fresh verifying decoder answers. -/
theorem test_dec_write_replies :
    reply (execWith tc (.decWrite (idFrame ++ frameA)) freshDec) = some (.ok abc)
    ∧ reply (execWith tc (.decWrite (idFrame ++ frameA ++ [0xFE#8, 0x02#8, 0x00#8, 0x00#8, 0xAA#8, 0xBB#8, 0x80#8, 0x00#8, 0x00#8,
        0x00#8] ++ frameC16)) freshDec) = some (.ok (abc ++ List.replicate 16 0x61#8))
    ∧ decStatus ((after (execWith tc (.decWrite [0xFF#8, 0x06#8]) freshDec)).dec 0) = 0x0011#16
    ∧ decStatus ((after (execWith tc (.decWrite (idFrame ++ [0x01#8, 0x07#8])) freshDec)).dec 0) = 0x001A#16
    ∧ ((after (execWith tc (.decWrite (idFrame ++ [0x01#8, 0x07#8])) freshDec)).dec 0).residual = [0x01#8, 0x07#8] := by
  decide +kernel
/-- Vectors D-4, D-11, D-17, D-18a, D-23, D-25 and program P4's status word. -/
theorem test_dec_write_errors :
    reply (execWith tc (.decWrite [0x00#8, 0x05#8]) freshDec) = some (.err .missingStreamIdentifier)
    ∧ reply (execWith tc (.decWrite (idFrame ++ frameBadC)) freshDec) = some (.err .decompressionFailure)
    ∧ reply (execWith tc (.decWrite (idFrame ++ frameBad ++ [0x10#8, 0x00#8, 0x00#8, 0x00#8])) freshDec)
      = some (.err .unskippableFrame)
    ∧ reply (execWith tc (.decWrite (idFrame ++ frameBad ++ frameBadC)) freshDec) = some (.err .checksumMismatch)
    ∧ decStatus ((after (execWith tc (.decWrite (idFrame ++ frameA ++ frameBad)) freshDec)).dec 0) = 0x0414#16
    ∧ decStatus ((after (execWith tcFailing (.decWrite (idFrame ++ [0x00#8, 0x10#8, 0x00#8, 0x00#8])) freshDec)).dec 0)
      = 0x2010#16 := by decide +kernel

/-- Vectors D-5 and D-15. -/
theorem test_dec_end :
    decStatus ((after (exec (.decEnd []) freshDec)).dec 0) = 0x0013#16
    ∧ reply (exec (.decEnd []) (small (.dec 0) EncUnit.fresh { streamingDec with residual := [0x01#8, 0x07#8] }))
      = some (.err .truncatedStream) := by decide +kernel

/-! ### The whole machine -/

/-- A packet sent to the wrong unit (R86): MASK's command at an encoder. -/
theorem test_wrong_unit :
    reply (step { freshEnc with pending := [(.enc 0, [0x30#8, 0x00#8, 0x00#8, 0x00#8, 0x00#8])] }) = some .refused := by
  decide +kernel
/-- A unit that has never been reset (R222). -/
theorem test_never_reset : reply (exec (.decEnd []) { State.reset with port := .dec 1 }) = some .refused := by decide +kernel
/-- R231: a block whose units are reset and not ended is not final; one whose used units are closed is. -/
theorem test_reset_not_final : ¬ State.reset.final := fun h => by
  have := h.2.1 0 (.inl (by decide))
  exact absurd this (by decide)
theorem test_closed_final :
    ({ State.reset with encs := [(0, { EncUnit.fresh with phase := .closed })], decs := [] } : State).final := by
  refine ⟨rfl, ?_, ?_, ?_, ?_, ?_, ?_, ?_, rfl⟩ <;> intro k <;>
    simp only [State.enc, State.dec, State.used, State.reset, bankRead]
  · split <;> simp [EncUnit.fresh, EncUnit.neverReset]
  · simp [DecUnit.neverReset]
  · split <;> simp [EncUnit.neverReset]
  · simp [DecUnit.neverReset]
  · split <;> simp [EncUnit.fresh, EncUnit.neverReset]
  · simp [DecUnit.neverReset]
  · simp [DecUnit.neverReset]
/-- Every unit's status word at reset (R46's reset column; the mask unit's is free, log 19). -/
theorem test_status_words :
    State.reset.statusWord (.enc 0) = 0x0000#16 ∧ State.reset.statusWord (.dec 0) = 0x0010#16
    ∧ State.reset.statusWord .mask = Config.maskStatusWord false := ⟨by decide, by decide, rfl⟩
/-- Response packets (R85). -/
theorem test_response_packets :
    responsePacket (.ok abc) = some [0x00#8, 0x03#8, 0x00#8, 0x00#8, 0x00#8, 0x61#8, 0x62#8, 0x63#8]
    ∧ responsePacket (.okMask 0xC78AB0E5#32) = some [0x00#8, 0x04#8, 0x00#8, 0x00#8, 0x00#8, 0xE5#8, 0xB0#8, 0x8A#8, 0xC7#8]
    ∧ responsePacket (.err .shortDataFrame) = some [0x08#8] := by decide

/-! ### Witnesses: for each obligation with hypotheses, concrete values that meet all of them together

(An obligation not named here has none.) -/

theorem witness_FrameDecodeOfEncode :
    (Instr.frameSkippable 0xFD#8 [0xAA#8]).isFrame = true ∧ (Instr.frameSkippable 0xFD#8 [0xAA#8]).encodable = true := by decide
theorem witness_PacketDecodeOfEncode :
    (Instr.decReset [0x01#8]).isFrame = false ∧ (Instr.decReset [0x01#8]).encodable = true := by decide
theorem witness_DecodedBytesAreTheEncoding :
    decodeFrame (frameA ++ [0x00#8]) = .ok (.frameUncompressed [0x6E#8, 0x57#8, 0xF1#8, 0x21#8, 0x61#8, 0x62#8, 0x63#8], [0x00#8])
    ∧ decodePacket [0x30#8, 0x01#8, 0x00#8, 0x00#8, 0x00#8, 0x61#8] = .ok (.mask [0x61#8]) := by decide
/-- Each clause at the ends of its range. -/
theorem witness_TypeCodeRanges :
    classify 0x00#8 = .compressed ∧ classify 0x01#8 = .uncompressed ∧ classify 0x02#8 = .unskippable 0x02#8
    ∧ classify 0x7F#8 = .unskippable 0x7F#8 ∧ classify 0x80#8 = .skippable 0x80#8 ∧ classify 0xFD#8 = .skippable 0xFD#8
    ∧ classify 0xFE#8 = .padding ∧ classify 0xFF#8 = .identifier := by decide
/-- The shortest sequences each clause admits, and the largest length. -/
theorem witness_LittleEndianFields :
    le24 [0x01#8, 0x02#8, 0x03#8] 0 = 197121 ∧ le32 [0x01#8, 0x02#8, 0x03#8, 0x04#8] 0 = 0x04030201#32
    ∧ pack24 (2 ^ 24 - 1) = [0xFF#8, 0xFF#8, 0xFF#8] ∧ pack32 0x04030201#32 = [0x01#8, 0x02#8, 0x03#8, 0x04#8] := by decide
theorem witness_PackingRoundTrips :
    (2 : Nat) ^ 24 - 1 < 2 ^ 24 ∧ 0 + 3 ≤ ([0x01#8, 0x02#8, 0x03#8] : Bytes).length
    ∧ 0 + 4 ≤ ([0x01#8, 0x02#8, 0x03#8, 0x04#8] : Bytes).length := by decide
theorem witness_MaskTransformBijective : 0 < 32 ∧ 31 < 32 ∧ (0 + 17) % 32 = 17 ∧ (31 + 17) % 32 = 16 := by decide
theorem witness_MaskAnswersAndChangesNothing : State.reset.port = .mask := by decide
theorem witness_EncResetStartsStream : freshEnc.port = .enc 0 := by decide
theorem witness_EncWriteAnswers : LiveEnc freshEnc 0 ∧ 1 = (abc.length + 65535) / 65536 := by decide
/-- A delivery with a last and an earlier block. -/
theorem witness_BlocksOfADelivery :
    1 + 1 = (splitBlocks (List.replicate 65537 0x61#8)).length ∧ 0 + 1 < (splitBlocks (List.replicate 65537 0x61#8)).length := by
  rw [splitBlocks, List.length_map, List.length_range, List.length_replicate]; decide
/-- Each clause, at the threshold of an 8-byte block. -/
theorem witness_FormatSelection :
    (List.replicate 8 0x61#8).length - (List.replicate 8 0x61#8).length / 8 ≤ (List.replicate 7 0x00#8).length
    ∧ (List.replicate 6 0x00#8).length < (List.replicate 8 0x61#8).length - (List.replicate 8 0x61#8).length / 8 := by decide
theorem witness_FrameAssembly : abc.length ≤ 65536 := by decide
theorem witness_EncodedFrameIsReadBack : abc.length ≤ 65536 := by decide
/-- Both kinds of frame come out. -/
theorem witness_EncodedFrameSizes :
    1 ≤ abc.length ∧ abc.length ≤ 65536 ∧ byteAt (blockFrame tc abc) 0 = 0x01#8
    ∧ byteAt (blockFrame tc (List.replicate 16 0x61#8)) 0 = 0x00#8 := by decide +kernel
theorem witness_CompressionFailureEmitsNothing :
    LiveEnc freshEnc 0
    ∧ ∃ j < (splitBlocks abc).length, (tcFailing.compressMayFail && tcFailing.compressDraw (freshEnc.draws + j)) = true :=
  ⟨by decide, 0, by decide, by decide⟩

/-- An encoder or a decoder that has failed or is closed. -/
def failedBlock (p : Port) : State :=
  small p { EncUnit.fresh with phase := .failed, err := some .compressionFailure }
    { streamingDec with phase := .failed, err := some .checksumMismatch }
def closedBlock (p : Port) : State := small p { EncUnit.fresh with phase := .closed } { streamingDec with phase := .closed }

theorem witness_EncEndCloses :
    LiveEnc freshEnc 0
    ∧ ((failedBlock (.enc 0)).port = .enc 0 ∧ ((failedBlock (.enc 0)).enc 0).everReset = true
      ∧ ((failedBlock (.enc 0)).enc 0).phase = .failed)
    ∧ ((closedBlock (.enc 0)).port = .enc 0 ∧ ((closedBlock (.enc 0)).enc 0).everReset = true
      ∧ ((closedBlock (.enc 0)).enc 0).phase = .closed) := by decide
theorem witness_EncWriteOutsideOpen :
    ((failedBlock (.enc 0)).port = .enc 0 ∧ ((failedBlock (.enc 0)).enc 0).everReset = true
      ∧ ((failedBlock (.enc 0)).enc 0).phase = .failed)
    ∧ ((closedBlock (.enc 0)).port = .enc 0 ∧ ((closedBlock (.enc 0)).enc 0).everReset = true
      ∧ ((closedBlock (.enc 0)).enc 0).phase = .closed) := by decide
/-- A compressor whose first call succeeds and whose later calls fail. -/
def tcLater : Collaborators := { tc with compressMayFail := true, compressDraw := fun n => decide (1 ≤ n) }
/-- A run whose one call succeeds, though a later call would fail. -/
theorem witness_EncoderOutputLaw :
    CallsSucceed tcLater State.reset.draws (callCount [abc]) ∧ compressFails tcLater 1 = true := by
  refine ⟨fun j hj => ?_, by decide⟩
  have h1 : callCount [abc] = 1 := by decide
  have h0 : j = 0 := by omega
  subst h0; decide

theorem witness_StreamIdentifierFrame : ([0x73#8] : Bytes) ≠ magic ∧ ([0x73#8] : Bytes).length < 2 ^ 24 ∧ magic.length < 2 ^ 24 := by
  decide
theorem witness_DataFramesAreRecorded : 4 ≤ ([0x00#8, 0x00#8, 0x00#8, 0x00#8] : Bytes).length := by decide
theorem witness_ShortDataFramesAreRejected :
    ([0x00#8, 0x00#8, 0x00#8] : Bytes).length < 4
    ∧ (Instr.frameCompressed [0x00#8, 0x00#8, 0x00#8] = .frameCompressed [0x00#8, 0x00#8, 0x00#8]
      ∨ Instr.frameCompressed [0x00#8, 0x00#8, 0x00#8] = .frameUncompressed [0x00#8, 0x00#8, 0x00#8]) := by decide
theorem witness_FrameAdvancesPastItself :
    (Instr.framePadding [0xAA#8]).isFrame = true
    ∧ exec (.framePadding [0xAA#8]) inDelivery = .next (inDelivery.skipFrame [0xAA#8])
    ∧ (inDelivery.skipFrame [0xAA#8]).responses = inDelivery.responses := ⟨rfl, rfl, rfl⟩

/-- A delivery whose first frame is padding. -/
def atPadding : State := freshDec.setWork (Work.start 0 [0xFE#8, 0x00#8, 0x00#8, 0x00#8, 0x01#8] true)
theorem witness_FrameLoopRunsDecodedFrame :
    decodeFrame (atPadding.work.data.drop atPadding.work.cur) = .ok (.framePadding [], [0x01#8])
    ∧ atPadding.work.active = true ∧ exec (.framePadding []) atPadding = .next (atPadding.skipFrame []) :=
  ⟨by decide, rfl, rfl⟩
/-- The edges of the loop condition: three bytes, a whole frame of four, a frame one byte short. -/
theorem witness_FrameLoopStopsAtIncompleteFrame :
    complete (freshDec.setWork (Work.start 0 [0xFE#8, 0x00#8, 0x00#8] true)).work.data 0 = false
    ∧ complete [0xFE#8, 0x00#8, 0x00#8, 0x00#8] 0 = true ∧ complete [0xFE#8, 0x01#8, 0x00#8, 0x00#8] 0 = false
    ∧ atPadding.work.active = true ∧ complete atPadding.work.data atPadding.work.cur = true
    ∧ runFrame atPadding = .next (atPadding.skipFrame []) := ⟨by decide, by decide, by decide, rfl, by decide, rfl⟩

theorem witness_DecResetStartsStream : freshDec.port = .dec 0 := by decide
/-- One byte, no byte, the identifier's byte. -/
theorem witness_MissingIdentifierFails :
    LiveDec freshDec 0 ∧ (freshDec.dec 0).found = false ∧ (freshDec.dec 0).residual ++ [0x00#8] ≠ []
    ∧ byteAt ((freshDec.dec 0).residual ++ [0x00#8]) 0 ≠ 0xFF#8
    ∧ (freshDec.dec 0).residual ++ [] = [] ∧ byteAt ((freshDec.dec 0).residual ++ [0xFF#8]) 0 = 0xFF#8 := by decide

/-- A decoder between frames that checks nothing. -/
def verbatimDec : State := small (.dec 0) EncUnit.fresh { streamingDec with verify := false }
theorem witness_VerbatimDelivery :
    LiveDec verbatimDec 0 ∧ (verbatimDec.dec 0).found = true ∧ (verbatimDec.dec 0).verify = false
    ∧ (verbatimDec.dec 0).residual = [] ∧ (verbatimDec.dec 0).phase = .streaming
    ∧ ∀ b ∈ [(0x00000000#32, abc)], b.2.length + 4 < 2 ^ 24 := by decide

/-- The frames of vector D-2. -/
def goodFrames : List Instr :=
  [.frameStreamId magic, .frameUncompressed [0x6E#8, 0x57#8, 0xF1#8, 0x21#8, 0x61#8, 0x62#8, 0x63#8]]
theorem goodFrames_good : GoodFrames goodFrames := by
  intro i hi
  simp only [goodFrames, List.mem_cons, List.not_mem_nil, or_false] at hi
  rcases hi with rfl | rfl
  · exact ⟨rfl, by decide, _, rfl⟩
  · exact ⟨rfl, by decide, _, rfl⟩
/-- The frames of vector D-11. -/
def badFrames : List Instr :=
  [.frameStreamId magic, .frameUncompressed [0x00#8, 0x00#8, 0x00#8, 0x00#8, 0x61#8, 0x62#8, 0x63#8]]
theorem badFrames_good : GoodFrames badFrames := by
  intro i hi
  simp only [badFrames, List.mem_cons, List.not_mem_nil, or_false] at hi
  rcases hi with rfl | rfl
  · exact ⟨rfl, by decide, _, rfl⟩
  · exact ⟨rfl, by decide, _, rfl⟩
theorem goodFrames_decode (c : Collaborators) (hc : c.crc32c = crc32cStandard) :
    ∀ x ∈ batchOf goodFrames, ∃ d, decodeTuple c true x = .ok d := by
  intro x hx
  rw [show batchOf goodFrames = [⟨.uncompressed, 0x21F1576E#32, abc⟩] by decide, List.mem_singleton] at hx
  subst hx
  refine ⟨abc, ?_⟩
  have : maskOf c abc = 0x21F1576E#32 := by rw [maskOf, hc]; decide +kernel
  simp [decodeTuple, decodeBlock, this]

theorem witness_DeliveryCommits :
    LiveDec freshDec 0
    ∧ (freshDec.dec 0).residual ++ (idFrame ++ frameA ++ [0x01#8, 0x07#8]) = (goodFrames.map encode).flatten ++ [0x01#8, 0x07#8]
    ∧ GoodFrames goodFrames ∧ complete [0x01#8, 0x07#8] 0 = false
    ∧ IdentifierInPlace (freshDec.dec 0).found ((freshDec.dec 0).residual ++ (idFrame ++ frameA ++ [0x01#8, 0x07#8]))
    ∧ (∀ x ∈ batchOf goodFrames, ∃ d, decodeTuple tc (freshDec.dec 0).verify x = .ok d) ∧ exceedsCap tc [0x01#8, 0x07#8] = false :=
  ⟨by decide, by decide, goodFrames_good, by decide, .inr (.inr (by decide)), goodFrames_decode tc rfl, by decide⟩
theorem witness_ParseErrorDecides :
    LiveDec freshDec 0
    ∧ (freshDec.dec 0).residual ++ (idFrame ++ frameBad ++ [0x10#8, 0x00#8, 0x00#8, 0x00#8, 0x55#8])
      = (badFrames.map encode).flatten ++ encode (.frameUnskippable 0x10#8 []) ++ [0x55#8]
    ∧ GoodFrames badFrames ∧ (Instr.frameUnskippable 0x10#8 []).isFrame = true
    ∧ (Instr.frameUnskippable 0x10#8 []).encodable = true
    ∧ frameContribution (.frameUnskippable 0x10#8 []) = .error .unskippableFrame
    ∧ IdentifierInPlace (freshDec.dec 0).found
      ((freshDec.dec 0).residual ++ (idFrame ++ frameBad ++ [0x10#8, 0x00#8, 0x00#8, 0x00#8, 0x55#8])) :=
  ⟨by decide, by decide, badFrames_good, by decide, by decide, rfl, .inr (.inr (by decide))⟩
theorem witness_BatchErrorDecides :
    LiveDec freshDec 0 ∧ (freshDec.dec 0).residual ++ (idFrame ++ frameBad) = (badFrames.map encode).flatten ++ []
    ∧ GoodFrames badFrames ∧ complete [] 0 = false
    ∧ IdentifierInPlace (freshDec.dec 0).found ((freshDec.dec 0).residual ++ (idFrame ++ frameBad))
    ∧ ∃ x ∈ batchOf badFrames, ∃ e, decodeTuple tc (freshDec.dec 0).verify x = .error e := by
  refine ⟨by decide, by decide, badFrames_good, by decide, .inr (.inr (by decide)),
    ⟨.uncompressed, 0x00000000#32, abc⟩, by decide, .checksumMismatch, ?_⟩
  have h : maskOf tc abc = 0x21F1576E#32 := by decide +kernel
  have hv : (freshDec.dec 0).verify = true := by decide
  simp [decodeTuple, decodeBlock, h, hv]
/-- Vector D-23. -/
theorem witness_CapacityRefusal :
    tcFailing.residualCap = some 3 ∧ LiveDec freshDec 0
    ∧ (freshDec.dec 0).residual ++ (idFrame ++ frameA ++ [0x00#8, 0x10#8, 0x00#8, 0x00#8])
      = (goodFrames.map encode).flatten ++ [0x00#8, 0x10#8, 0x00#8, 0x00#8]
    ∧ GoodFrames goodFrames ∧ complete [0x00#8, 0x10#8, 0x00#8, 0x00#8] 0 = false
    ∧ IdentifierInPlace (freshDec.dec 0).found
      ((freshDec.dec 0).residual ++ (idFrame ++ frameA ++ [0x00#8, 0x10#8, 0x00#8, 0x00#8]))
    ∧ (∀ x ∈ batchOf goodFrames, ∃ d, decodeTuple tcFailing (freshDec.dec 0).verify x = .ok d)
    ∧ 3 < ([0x00#8, 0x10#8, 0x00#8, 0x00#8] : Bytes).length :=
  ⟨rfl, by decide, by decide, goodFrames_good, by decide, .inr (.inr (by decide)), goodFrames_decode tcFailing rfl, by decide⟩
/-- Vectors D-17 and D-3: a block the decompressor rejects, one it answers. -/
theorem witness_TupleDecoding :
    tc.decompressFn [0xCC#8, 0xDD#8] = none
    ∧ tc.decompressFn [0xAA#8, 0x61#8, 0x10#8, 0x00#8, 0x00#8] = some (List.replicate 16 0x61#8) := by decide
theorem witness_DecWriteOutsideLivePhases :
    ((failedBlock (.dec 0)).port = .dec 0 ∧ ((failedBlock (.dec 0)).dec 0).everReset = true
      ∧ ((failedBlock (.dec 0)).dec 0).phase = .failed)
    ∧ ((closedBlock (.dec 0)).port = .dec 0 ∧ ((closedBlock (.dec 0)).dec 0).everReset = true
      ∧ ((closedBlock (.dec 0)).dec 0).phase = .closed) := by decide
/-- A decoder that holds the start of a frame. -/
def waitingDec : State := small (.dec 0) EncUnit.fresh { streamingDec with residual := [0x01#8, 0x07#8] }
theorem witness_DecEndClosesOrTruncates :
    (LiveDec freshDec 0 ∧ (freshDec.dec 0).residual = []) ∧ (LiveDec waitingDec 0 ∧ (waitingDec.dec 0).residual ≠ [])
    ∧ ((failedBlock (.dec 0)).port = .dec 0 ∧ ((failedBlock (.dec 0)).dec 0).everReset = true
      ∧ ((failedBlock (.dec 0)).dec 0).phase = .failed)
    ∧ ((closedBlock (.dec 0)).port = .dec 0 ∧ ((closedBlock (.dec 0)).dec 0).everReset = true
      ∧ ((closedBlock (.dec 0)).dec 0).phase = .closed) := by decide

theorem exceedsCap_nil (c : Collaborators) : exceedsCap c [] = false := by
  unfold exceedsCap
  split
  · rfl
  · simp
theorem fresh_inv (c : Collaborators) (verify : Bool) : (DecUnit.fresh verify).Inv c where
  errInFailed := by simp [DecUnit.fresh]
  errIsDecoders := by simp [DecUnit.fresh]
  livePhase := fun _ => rfl
  closedIsDrained := fun _ => rfl
  residualIncomplete := rfl
  residualStartsIdentifier := fun _ h => absurd rfl h
  noOutputBeforeIdentifier := fun _ => rfl
  residualFits := exceedsCap_nil c
  untouchedBeforeReset := fun h => by simp [DecUnit.fresh] at h
theorem witness_ResidualBound : (DecUnit.fresh true).Inv tc := fresh_inv tc true
theorem witness_ChunkingIndependence :
    tc.residualCap = none ∧ [idFrame, frameA].flatten = [idFrame ++ [0x01#8], frameA.drop 1].flatten := by decide

theorem tc_inverse : LawInverse tc := by
  intro b hb
  cases b with
  | nil => rfl
  | cons x rest =>
    show tcDecompress (tcCompress (x :: rest)) = some (x :: rest)
    rw [tcCompress]
    split
    · next h =>
      simp only [Bool.and_eq_true, List.all_eq_true, decide_eq_true_eq] at h
      have hlen : le24 (x :: pack24 (rest.length + 1)) 1 = rest.length + 1 := by
        have := le24_pack24 h.2 []
        simpa [le24] using this
      have hbody : tcDecompress ([0xAA#8, x] ++ pack24 (rest.length + 1)) = some (List.replicate (rest.length + 1) x) := by
        simp [tcDecompress, hlen]
      rw [hbody, List.replicate_succ, List.eq_replicate_of_mem h.1]
      simp
    · simp [tcDecompress]
theorem witness_RoundTrip :
    LawInverse tcLater ∧ CallsSucceed tcLater State.reset.draws (callCount [abc]) ∧ tcLater.residualCap = none
    ∧ ∃ t, runOn tcLater (.enc 0) (encoderScript [abc]) State.reset = .next t
      ∧ [(t.enc 0).out.take 13, (t.enc 0).out.drop 13].flatten = (t.enc 0).out :=
  ⟨tc_inverse, witness_EncoderOutputLaw.1, rfl, _, rfl, by simp⟩

theorem witness_StepRunsDecodedCommand :
    ({ freshEnc with pending := [(.enc 0, encodePacket 0x12#8 [])] } : State).pending = (.enc 0, encodePacket 0x12#8 []) :: []
    ∧ decodePacket (encodePacket 0x12#8 []) = .ok (.encEnd []) ∧ decodePacket [0x12#8] = .error .packetTooShort
    ∧ freshEnc.pending = [] := by decide

/-- Encoder 0 after an accepted end. -/
def endedEnc : State := after (exec (.encEnd []) freshEnc)
/-- Decoder 0 after an accepted end, and after one that found a residual. -/
def endedDec : State := after (exec (.decEnd []) freshDec)
def truncatedDec : State := after (exec (.decEnd []) waitingDec)

theorem witness_OneResponsePerCommand : (Instr.encEnd []).isFrame = false ∧ exec (.encEnd []) freshEnc = .next endedEnc :=
  ⟨rfl, next_after (by decide +kernel)⟩
theorem witness_CommandsTouchOnlyTheirUnit : (Instr.decEnd []).isFrame = false ∧ exec (.decEnd []) freshDec = .next endedDec :=
  ⟨rfl, next_after (by decide +kernel)⟩
/-- Two blocks with the same encoder 0 and different decoders. -/
theorem witness_UnitsActIndependently :
    (Instr.encEnd []).isFrame = false ∧ freshEnc.port = ({ waitingDec with port := .enc 0 } : State).port
    ∧ freshEnc.draws = ({ waitingDec with port := .enc 0 } : State).draws
    ∧ freshEnc.enc 0 = ({ waitingDec with port := .enc 0 } : State).enc 0
    ∧ exec (.encEnd []) freshEnc = .next endedEnc
    ∧ exec (.encEnd []) { waitingDec with port := .enc 0 }
      = .next (after (exec (.encEnd []) { waitingDec with port := .enc 0 })) :=
  ⟨rfl, by decide, by decide, by decide, next_after (by decide +kernel), next_after (by decide +kernel)⟩
theorem witness_IllegalPacketsAreRefused :
    ({ freshEnc with pending := [(.enc 0, [0x13#8])] } : State).pending = (.enc 0, [0x13#8]) :: []
    ∧ ¬ LegalPacket (.enc 0) [0x13#8] ∧ ¬ LegalPacket (.dec 0) (encodePacket 0x20#8 [0x02#8])
    ∧ ¬ LegalPacket .mask (encodePacket 0x10#8 []) := by
  refine ⟨rfl, ?_, ?_, ?_⟩ <;> simp [LegalPacket, encodePacket]
theorem witness_NeverResetUnitsRefuse :
    (({ State.reset with port := .enc 1 } : State).port = .enc 1
      ∧ (({ State.reset with port := .enc 1 } : State).enc 1).everReset = false)
    ∧ (({ State.reset with port := .dec 1 } : State).port = .dec 1
      ∧ (({ State.reset with port := .dec 1 } : State).dec 1).everReset = false) := by decide
theorem witness_ErrorsArePrecise :
    (Instr.decEnd []).isFrame = false ∧ exec (.decEnd []) waitingDec = .next truncatedDec
    ∧ truncatedDec.responses = waitingDec.responses ++ [(waitingDec.port, .err .truncatedStream)] :=
  ⟨rfl, next_after (by decide +kernel), by decide +kernel⟩
theorem witness_FailedIsTerminal :
    (Instr.encEnd []).isFrame = false
    ∧ exec (.encEnd []) (failedBlock (.enc 0)) = .next (after (exec (.encEnd []) (failedBlock (.enc 0))))
    ∧ ((failedBlock (.enc 0)).enc 0).phase = .failed ∧ (failedBlock (.enc 0)).port = .enc 0
    ∧ ((failedBlock (.enc 0)).dec 0).phase = .failed
    ∧ exec (.decEnd []) (failedBlock (.dec 0)) = .next (after (exec (.decEnd []) (failedBlock (.dec 0))))
    ∧ (failedBlock (.dec 0)).port = .dec 0 ∧ ((failedBlock (.dec 0)).dec 0).phase = .failed :=
  ⟨rfl, next_after (by decide +kernel), by decide, by decide, by decide, next_after (by decide +kernel), by decide, by decide⟩
theorem witness_OutputGrowsByTheReply :
    exec (.encEnd []) freshEnc = .next endedEnc ∧ endedEnc.responses = freshEnc.responses ++ [(freshEnc.port, .ok [])]
    ∧ freshEnc.port = .enc 0
    ∧ exec (.decEnd []) freshDec = .next endedDec ∧ endedDec.responses = freshDec.responses ++ [(freshDec.port, .ok [])]
    ∧ freshDec.port = .dec 0 :=
  ⟨next_after (by decide +kernel), by decide +kernel, by decide, next_after (by decide +kernel), by decide +kernel, by decide⟩
theorem witness_FoundAndVerifyPersist :
    (Instr.decEnd []).isFrame = false ∧ (∀ operand, Instr.decEnd [] ≠ .decReset operand)
    ∧ exec (.decEnd []) waitingDec = .next truncatedDec ∧ (waitingDec.dec 0).found = true :=
  ⟨rfl, fun _ h => (nomatch h), next_after (by decide +kernel), by decide⟩
theorem witness_EncoderPhaseTransitions :
    (Instr.encEnd []).isFrame = false ∧ exec (.encEnd []) freshEnc = .next endedEnc
    ∧ (endedEnc.enc 0).phase ≠ (freshEnc.enc 0).phase := ⟨rfl, next_after (by decide +kernel), by decide +kernel⟩
theorem witness_DecoderPhaseTransitions :
    (Instr.decEnd []).isFrame = false ∧ (freshDec.dec 0).Inv Config.platform ∧ exec (.decEnd []) freshDec = .next endedDec
    ∧ (endedDec.dec 0).phase ≠ (freshDec.dec 0).phase :=
  ⟨rfl, fresh_inv _ true, next_after (by decide +kernel), by decide +kernel⟩

/-- A block of decoder 0 alone, with its end of stream issued. -/
def toEnd : State :=
  { State.reset with encs := [], decs := [(0, DecUnit.fresh true)], pending := [(.dec 0, encodePacket 0x22#8 [])] }
theorem toEnd_inv : toEnd.Inv Config.platform := by
  refine ⟨by decide, by decide, fun k => ⟨fun h => by simp [State.enc, toEnd, bankRead, EncUnit.neverReset] at h, rfl,
    fun _ => rfl⟩, fun k => ?_, rfl⟩
  simp only [State.dec, toEnd, bankRead]
  split
  · exact fresh_inv _ true
  · exact ⟨by simp [DecUnit.neverReset], by simp [DecUnit.neverReset], fun _ => rfl, fun _ => rfl, rfl,
      fun _ h => absurd rfl h, fun _ => rfl, exceedsCap_nil _, fun _ => rfl⟩
theorem witness_StepKeepsInvariant : toEnd.Inv Config.platform ∧ step toEnd = .next (after (step toEnd)) :=
  ⟨toEnd_inv, next_after (by decide +kernel)⟩
/-- A unit in each phase and an error of each unit (program P4's and vector E-6's words). -/
theorem witness_StatusWordFields :
    ({ EncUnit.fresh with phase := .failed, err := some .compressionFailure } : EncUnit).err = some .compressionFailure
    ∧ encStatus { EncUnit.fresh with phase := .failed, err := some .compressionFailure } = 0x0062#16
    ∧ ({ DecUnit.fresh true with phase := .failed, err := some .checksumMismatch } : DecUnit).err = some .checksumMismatch
    ∧ decStatus { DecUnit.fresh true with phase := .failed, err := some .checksumMismatch } = 0x0414#16
    ∧ EncUnit.fresh.err = none ∧ (DecUnit.fresh true).err = none ∧ State.reset.port = .mask := by decide
/-- The empty reply, of `ENC_END`, `DEC_END` and `DEC_RESET`, and one of three bytes. -/
theorem witness_ResponsePackets :
    ([] : Bytes).length < 2 ^ 32 ∧ responsePacket (.ok []) = some [0x00#8, 0x00#8, 0x00#8, 0x00#8, 0x00#8]
    ∧ abc.length < 2 ^ 32 := by decide

end Sys2Proof.Tests
end

section
/-! Little-endian fields at any offset: what reading and packing give byte by byte (00_scope.md R11), and that they are inverse
(20_memory.md R53, R54). -/

namespace Sys2Proof

section Reading
variable {s : Bytes} {i : Nat}

theorem byteAt_eq_getElem (h : i < s.length) : byteAt s i = s[i] := by
  simp [byteAt, h]

theorem le24_eq_sum (h : i + 3 ≤ s.length) :
    le24 s i = s[i].toNat + 256 * s[i + 1].toNat + 65536 * s[i + 2].toNat := by
  rw [le24, byteAt_eq_getElem, byteAt_eq_getElem, byteAt_eq_getElem]

/-- The four bytes' weighted sum fits in the word, so no bit is lost. -/
theorem le32_toNat (s : Bytes) (i : Nat) : (le32 s i).toNat = le32Nat s i := by
  rw [le32, BitVec.toNat_ofNat, Nat.mod_eq_of_lt (le32Nat_lt s i)]

theorem le32_toNat_eq_sum (h : i + 4 ≤ s.length) :
    (le32 s i).toNat = s[i].toNat + 2 ^ 8 * s[i + 1].toNat + 2 ^ 16 * s[i + 2].toNat + 2 ^ 24 * s[i + 3].toNat := by
  rw [le32_toNat, le32Nat, byteAt_eq_getElem, byteAt_eq_getElem, byteAt_eq_getElem, byteAt_eq_getElem]

theorem le32_drop (s : Bytes) (i j : Nat) : le32 (s.drop i) j = le32 s (i + j) := by
  simp [le32, le32Nat, byteAt_drop, Nat.add_assoc]

/-- A field at an offset is the field at the head of what stands from there on. -/
theorem le24_eq_drop (s : Bytes) (i : Nat) : le24 s i = le24 (s.drop i) 0 := (le24_drop s i 0).symm

theorem le32_eq_drop (s : Bytes) (i : Nat) : le32 s i = le32 (s.drop i) 0 := (le32_drop s i 0).symm

end Reading

section Packing

/-- Below `2^24` the bytes `pack24` computes by division are the bit fields of the 24-bit value. -/
theorem pack24_eq_extractLsb' {n : Nat} (h : n < 2 ^ 24) :
    pack24 n =
      [(BitVec.ofNat 24 n).extractLsb' 0 8, (BitVec.ofNat 24 n).extractLsb' 8 8, (BitVec.ofNat 24 n).extractLsb' 16 8] := by
  have hbyte (j : Nat) : (BitVec.ofNat 24 n).extractLsb' j 8 = BitVec.ofNat 8 (n / 2 ^ j) := by
    rw [BitVec.extractLsb', BitVec.toNat_ofNat, Nat.mod_eq_of_lt h, Nat.shiftRight_eq_div_pow]
  simp [pack24, hbyte]

theorem le24_append_pack24 (before after : Bytes) {n : Nat} (h : n < 2 ^ 24) :
    le24 (before ++ pack24 n ++ after) before.length = n := by
  rw [le24_eq_drop, List.append_assoc, List.drop_left, le24_pack24 h]

theorem le32_append_pack32 (before after : Bytes) (v : Word) :
    le32 (before ++ pack32 v ++ after) before.length = v := by
  rw [le32_eq_drop, List.append_assoc, List.drop_left, le32_pack32]

theorem pack24_le24_eq_take : ∀ {s : Bytes}, 3 ≤ s.length → pack24 (le24 s 0) = s.take 3
  | a :: b :: c :: r, _ => pack24_le24 a b c r

theorem pack32_le32_eq_take : ∀ {s : Bytes}, 4 ≤ s.length → pack32 (le32 s 0) = s.take 4
  | a :: b :: c :: e :: r, _ => pack32_le32 a b c e r

theorem pack24_le24_eq_memRead {s : Bytes} {i : Nat} (h : i + 3 ≤ s.length) : pack24 (le24 s i) = memRead s i 3 := by
  rw [le24_eq_drop, pack24_le24_eq_take (by rw [List.length_drop]; omega), memRead]

theorem pack32_le32_eq_memRead {s : Bytes} {i : Nat} (h : i + 4 ≤ s.length) : pack32 (le32 s i) = memRead s i 4 := by
  rw [le32_eq_drop, pack32_le32_eq_take (by rw [List.length_drop]; omega), memRead]

end Packing

/-- Settles O7: cut the bytes at the offset, where the field stands at the head. -/
theorem packingRoundTrips : Obligations.PackingRoundTrips :=
  ⟨fun before after _ h => le24_append_pack24 before after h, le32_append_pack32,
    fun _ _ h => pack24_le24_eq_memRead h, fun _ _ h => pack32_le32_eq_memRead h⟩

/-- Settles O6: every byte read lies inside the sequence, and every byte packed is a bit field of the value. -/
theorem littleEndianFields : Obligations.LittleEndianFields :=
  ⟨fun _ _ h => le24_eq_sum h, fun _ _ h => le32_toNat_eq_sum h, fun _ h => pack24_eq_extractLsb' h, fun _ => rfl⟩

end Sys2Proof
end

section
/-! `exec` at the instructions that call a collaborator, and the passage from every collaborator to the platform's (00_scope.md R7,
60_exceptions.md R201). -/

namespace Sys2Proof.Machine

theorem exec_encWrite (chunk : Bytes) (s : State) : exec (.encWrite chunk) s = encWrite Config.platform chunk s := rfl

theorem exec_decWrite (chunk : Bytes) (s : State) : exec (.decWrite chunk) s = decWrite Config.platform chunk s := rfl

theorem exec_mask (data : Bytes) (s : State) : exec (.mask data) s = maskCommand Config.platform data s := rfl

/-- Settles O44: the three commands that call a collaborator call the platform's; the meaning of every other instruction takes none. -/
theorem execUsesPlatform : Obligations.ExecUsesPlatform := by
  intro i s
  cases i with
  | encWrite chunk => exact exec_encWrite chunk s
  | decWrite chunk => exact exec_decWrite chunk s
  | mask data => exact exec_mask data s
  | frameStreamId _ | frameCompressed _ | frameUncompressed _ | frameUnskippable _ _ | frameSkippable _ _ | framePadding _
  | encReset _ | encEnd _ | decReset _ | decEnd _ => rfl

end Sys2Proof.Machine
end

section
/-! What one command of `exec` leaves of each encoder and each decoder, said once (10_state.md R22, R38, R39). -/

namespace Sys2Proof.Machine

/-- The outcome of a command of the machine is one of `CommandEffect`'s, with the platform's collaborators. -/
theorem exec_cases {i : Instr} {s t : State} (hi : i.isFrame = false) (h : exec i s = .next t) :
    CommandEffect Config.platform s i t :=
  execWith_cases hi (execUsesPlatform i s ▸ h)

/-- What a command leaves of encoder `k`, one constructor per way it can change. -/
inductive EncChange (c : Collaborators) (s : State) (k : Nat) : Instr → EncUnit → Prop
  | unchanged (i : Instr) : EncChange c s k i (s.enc k)
  | refused (i : Instr) : EncChange c s k i { s.enc k with protocolFault := true }
  | reset : EncChange c s k (.encReset []) EncUnit.fresh
  | failed (chunk : Bytes) (hl : LiveEnc s k) :
      EncChange c s k (.encWrite chunk) { s.enc k with phase := .failed, err := some .compressionFailure }
  | emitted (chunk : Bytes) (hl : LiveEnc s k) :
      EncChange c s k (.encWrite chunk) { s.enc k with out := (s.enc k).out ++ deliveryFrames c chunk }
  | closed (hl : LiveEnc s k) : EncChange c s k (.encEnd []) { s.enc k with phase := .closed }

/-- What a command leaves of decoder `k`, one constructor per way it can change. -/
inductive DecChange (c : Collaborators) (s : State) (k : Nat) : Instr → DecUnit → Prop
  | unchanged (i : Instr) : DecChange c s k i (s.dec k)
  | refused (i : Instr) : DecChange c s k i { s.dec k with protocolFault := true }
  | reset (operand : Bytes) (verify : Bool) : DecChange c s k (.decReset operand) (DecUnit.fresh verify)
  | received (chunk : Bytes) (hl : LiveDec s k) :
      DecChange c s k (.decWrite chunk) (receive c s.draws chunk (s.dec k)).1
  | closed (hl : LiveDec s k) (hr : (s.dec k).residual = []) :
      DecChange c s k (.decEnd []) { s.dec k with phase := .closed }
  | truncated (hl : LiveDec s k) (hr : (s.dec k).residual ≠ []) :
      DecChange c s k (.decEnd []) ((s.dec k).failWith .truncatedStream)

section
variable {c : Collaborators} {i : Instr} {s t : State}

theorem EncChange.setEnc {k : Nat} {u : EncUnit} (h : EncChange c s k i u) (j : Nat) :
    EncChange c s j i ((s.setEnc k u).enc j) := by
  by_cases hj : j = k
  · subst hj; rwa [State.enc_setEnc_self]
  · rw [State.enc_setEnc_other _ _ _ _ hj]; exact .unchanged i

theorem DecChange.setDec {k : Nat} {u : DecUnit} (h : DecChange c s k i u) (j : Nat) :
    DecChange c s j i ((s.setDec k u).dec j) := by
  by_cases hj : j = k
  · subst hj; rwa [State.dec_setDec_self]
  · rw [State.dec_setDec_other _ _ _ _ hj]; exact .unchanged i

theorem CommandEffect.encChange (h : CommandEffect c s i t) (j : Nat) : EncChange c s j i (t.enc j) := by
  cases h with
  | refused =>
    rw [State.enc_refuse]
    split
    · exact .refused i
    · exact .unchanged i
  | encReset k _ => exact EncChange.reset.setEnc j
  | encWriteFails k chunk hl _ => exact (EncChange.failed chunk hl).setEnc j
  | encWriteEmits k chunk hl _ => exact (EncChange.emitted chunk hl).setEnc j
  | encEnd k hl => exact (EncChange.closed hl).setEnc j
  | droppedEnc | droppedDec | decReset | decWrite | decEnd | decEndTruncated | mask => exact .unchanged _

theorem CommandEffect.decChange (h : CommandEffect c s i t) (j : Nat) : DecChange c s j i (t.dec j) := by
  cases h with
  | refused =>
    rw [State.dec_refuse]
    split
    · exact .refused i
    · exact .unchanged i
  | decReset k verify operand _ _ => exact (DecChange.reset operand verify).setDec j
  | decWrite k chunk hl => exact (DecChange.received chunk hl).setDec j
  | decEnd k hl hr => exact (DecChange.closed hl hr).setDec j
  | decEndTruncated k hl hr => exact (DecChange.truncated hl hr).setDec j
  | droppedEnc | droppedDec | encReset | encWriteFails | encWriteEmits | encEnd | mask => exact .unchanged _

end

end Sys2Proof.Machine
end

section
/-! The invariant of the registers between commands (10_state.md R24, R30, R32, R37, R43): it holds after reset and every step keeps it. -/

namespace Sys2Proof.Machine

section Encoder
variable {u : EncUnit}

theorem EncUnit.inv_fresh : EncUnit.fresh.Inv :=
  ⟨fun _ => List.prefix_rfl, rfl, fun h => nomatch h⟩

theorem EncUnit.inv_neverReset : EncUnit.neverReset.Inv :=
  ⟨fun h => (nomatch h), rfl, fun _ => rfl⟩

/-- A compressor failure sets phase and kind together (41_encoder.md R118). -/
theorem EncUnit.Inv.fail (h : u.Inv) (hr : u.everReset = true) :
    ({ u with phase := .failed, err := some .compressionFailure } : EncUnit).Inv :=
  ⟨h.startsWithIdentifier, rfl, fun hn => by simp [hr] at hn⟩

/-- Emitting keeps the identifier at the front (41_encoder.md R121). -/
theorem EncUnit.Inv.emit (h : u.Inv) (hr : u.everReset = true) (b : Bytes) :
    ({ u with out := u.out ++ b } : EncUnit).Inv :=
  ⟨fun he => (h.startsWithIdentifier he).trans (List.prefix_append _ _), h.errInFailed, fun hn => by simp [hr] at hn⟩

/-- Closing an `Open` encoder leaves `err` at `NONE` (41_encoder.md R120). -/
theorem EncUnit.Inv.close (h : u.Inv) (hr : u.everReset = true) (ho : u.phase = .opened) :
    ({ u with phase := .closed } : EncUnit).Inv :=
  ⟨h.startsWithIdentifier, by simpa [ho] using h.errInFailed, fun hn => by simp [hr] at hn⟩

end Encoder

section Decoder
variable {c : Collaborators} {u : DecUnit}

theorem exceedsCap_empty (c : Collaborators) : exceedsCap c [] = false := by
  cases h : c.residualCap <;> simp [exceedsCap, h]

theorem DecUnit.inv_fresh (verify : Bool) : (DecUnit.fresh verify).Inv c where
  errInFailed := by simp [DecUnit.fresh]
  errIsDecoders := by simp [DecUnit.fresh]
  livePhase _ := rfl
  closedIsDrained _ := rfl
  residualIncomplete := rfl
  residualStartsIdentifier _ hne := absurd rfl hne
  noOutputBeforeIdentifier _ := rfl
  residualFits := exceedsCap_empty c
  untouchedBeforeReset h := nomatch h

/-- The placeholders differ from a fresh decoder only in `everReset` (log 2). -/
theorem DecUnit.inv_neverReset : DecUnit.neverReset.Inv c :=
  { DecUnit.inv_fresh (c := c) false with untouchedBeforeReset := fun _ => rfl }

/-- Closing a live decoder that holds no residual (42_decoder.md R162). -/
theorem DecUnit.Inv.close (h : u.Inv c) (hr : u.everReset = true) (hl : u.phase.isTerminal = false)
    (hd : u.residual = []) : ({ u with phase := .closed } : DecUnit).Inv c :=
  { h with
    errInFailed := by simp [h.err_live hl]
    livePhase := fun hn => nomatch hn
    closedIsDrained := fun _ => hd
    untouchedBeforeReset := fun hn => by simp [hr] at hn }

end Decoder

section Command
variable {c : Collaborators} {i : Instr} {s t : State}

theorem EncChange.inv {k : Nat} {u : EncUnit} (h : EncChange c s k i u) (hs : (s.enc k).Inv) : u.Inv := by
  cases h with
  | unchanged => exact hs
  | refused => exact hs.refuse
  | reset => exact EncUnit.inv_fresh
  | failed _ hl => exact hs.fail hl.2.1
  | emitted _ hl => exact hs.emit hl.2.1 _
  | closed hl => exact hs.close hl.2.1 hl.2.2

theorem DecChange.inv {k : Nat} {u : DecUnit} (h : DecChange c s k i u) (hs : (s.dec k).Inv c) : u.Inv c := by
  cases h with
  | unchanged => exact hs
  | refused => exact hs.refuse
  | reset => exact DecUnit.inv_fresh _
  | received _ hl => exact hs.receive hl.2.1 hl.2.2 _ _
  | closed hl hr => exact hs.close hl.2.1 hl.2.2 hr
  | truncated hl => exact hs.failWith hl.2.1 (by simp)

/-- A command keeps both banks in canonical form. -/
theorem CommandEffect.canonical (h : CommandEffect c s i t) (he : bankWf EncUnit.neverReset s.encs = true)
    (hd : bankWf DecUnit.neverReset s.decs = true) :
    bankWf EncUnit.neverReset t.encs = true ∧ bankWf DecUnit.neverReset t.decs = true := by
  cases h with
  | refused => exact State.refuse_canonical _ he hd
  | encWriteFails | decEndTruncated => exact State.raise_canonical _ _ he hd
  | encReset k => exact ⟨State.setEnc_canonical s k EncUnit.fresh he, hd⟩
  | encWriteEmits | encEnd => exact ⟨State.setEnc_canonical _ _ _ he, hd⟩
  | decReset k verify => exact ⟨he, State.setDec_canonical s k (DecUnit.fresh verify) hd⟩
  | decWrite | decEnd => exact ⟨he, State.setDec_canonical _ _ _ hd⟩
  | droppedEnc | droppedDec | mask => exact ⟨he, hd⟩

/-- A command leaves no transient value over (10_state.md R43). -/
theorem CommandEffect.idle (h : CommandEffect c s i t) (hw : s.work = Work.idle) : t.work = Work.idle := by
  cases h with
  | refused => rw [State.refuse_work, hw]
  | decWrite => rfl
  | droppedEnc | droppedDec | encReset | encWriteFails | encWriteEmits | encEnd | decReset | decEnd | decEndTruncated
  | mask => exact hw

theorem CommandEffect.inv (h : CommandEffect c s i t) (hs : s.Inv c) : t.Inv c :=
  have hb := h.canonical hs.encsCanonical hs.decsCanonical
  ⟨hb.1, hb.2, fun k => (h.encChange k).inv (hs.encUnits k), fun k => (h.decChange k).inv (hs.decUnits k),
    h.idle hs.noDeliveryOpen⟩

/-- The refusal of a packet is an effect that every command can have. -/
theorem State.Inv.refuse (h : s.Inv c) : (s.refuse s.port).Inv c :=
  (CommandEffect.refused (.mask [])).inv h

/-- Taking a packet from the queue touches nothing the invariant speaks of. -/
theorem State.Inv.served (h : s.Inv c) (p : Port) (rest : List (Port × Bytes)) :
    State.Inv c { s with pending := rest, port := p } :=
  ⟨h.encsCanonical, h.decsCanonical, h.encUnits, h.decUnits, h.noDeliveryOpen⟩

end Command

/-! ### Steps -/

section Step
variable {s : State} {p : Port} {packet : Bytes} {rest : List (Port × Bytes)}

theorem step_waits (h : s.pending = []) : step s = .next s := by
  simp [step, fetchCommand, h]

theorem step_runs {i : Instr} (h : s.pending = (p, packet) :: rest) (hd : decodePacket packet = .ok i) :
    step s = exec i { s with pending := rest, port := p } := by
  simp [step, fetchCommand, h, hd]

theorem step_refuses {e : DecodeError} (h : s.pending = (p, packet) :: rest) (hd : decodePacket packet = .error e) :
    step s = .next (State.refuse { s with pending := rest, port := p } p) := by
  simp [step, fetchCommand, h, hd, State.rejectPacket]

end Step

/-- A packet is read as a command, never as a frame (30_encoding.md R84). -/
theorem decodePacket_isFrame {packet : Bytes} {i : Instr} (h : decodePacket packet = .ok i) : i.isFrame = false := by
  obtain ⟨cmd, operand, hc, -, -⟩ := decodePacket_inv h
  unfold commandInstr at hc
  repeat' split at hc
  all_goals cases hc <;> rfl

/-- Settles O43: the three clauses are the three ways a step can go. -/
theorem stepRunsDecodedCommand : Obligations.StepRunsDecodedCommand :=
  ⟨fun _ _ _ _ _ => step_runs, fun _ _ _ _ _ => step_refuses, fun _ => step_waits⟩

/-- Settles O57: a step waits, refuses its packet, or has the effect of a command, and each keeps the invariant. -/
theorem stepKeepsInvariant : Obligations.StepKeepsInvariant := by
  intro s t hs h
  cases hq : s.pending with
  | nil =>
    rw [step_waits hq] at h
    cases h
    exact hs
  | cons head rest =>
    obtain ⟨p, packet⟩ := head
    have hserved := hs.served p rest
    cases hd : decodePacket packet with
    | ok i =>
      rw [step_runs hq hd] at h
      exact (exec_cases (decodePacket_isFrame hd) h).inv hserved
    | error e =>
      rw [step_refuses hq hd] at h
      cases h
      exact hserved.refuse

theorem State.enc_reset (k : Nat) : State.reset.enc k = if 0 = k then EncUnit.fresh else EncUnit.neverReset := rfl

theorem State.dec_reset (k : Nat) : State.reset.dec k = if 0 = k then DecUnit.fresh true else DecUnit.neverReset := rfl

/-- Settles O58: unit 0 of each kind is fresh, every other holds the placeholders. -/
theorem resetMeetsInvariant : Obligations.ResetMeetsInvariant where
  encsCanonical := by decide
  decsCanonical := by decide
  encUnits k := by
    rw [State.enc_reset]
    split
    · exact EncUnit.inv_fresh
    · exact EncUnit.inv_neverReset
  decUnits k := by
    rw [State.dec_reset]
    split
    · exact DecUnit.inv_fresh true
    · exact DecUnit.inv_neverReset
  noDeliveryOpen := rfl

end Sys2Proof.Machine
end

section
/-! What a command answers, which units it leaves alone, and how outputs, flags and phases move (10_state.md R20, R22, R25, R29, R31, R33,
R38, R39, R42, 60_exceptions.md R202). -/

namespace Sys2Proof.Machine

section Frame
variable {c : Collaborators} {i : Instr} {s t : State}

theorem CommandEffect.onlyUnit (h : CommandEffect c s i t) : OnlyUnit s.port s t := by
  cases h with
  | refused => exact OnlyUnit.refuse _ _
  | droppedEnc | droppedDec => exact (OnlyUnit.refl _ _).reply _ _
  | mask => exact (OnlyUnit.refl _ _).reply _ _
  | encReset k hp => rw [hp]; exact (OnlyUnit.setEnc _ _ _).reply _ _
  | encWriteFails k chunk hl => rw [hl.1]; exact (OnlyUnit.raise _ _ _).afterDraws
  | encWriteEmits k chunk hl => rw [hl.1]; exact ((OnlyUnit.setEnc _ _ _).reply _ _).afterDraws
  | encEnd k hl => rw [hl.1]; exact (OnlyUnit.setEnc _ _ _).reply _ _
  | decReset k verify operand hp => rw [hp]; exact (OnlyUnit.setDec _ _ _).reply _ _
  | decWrite k chunk hl => rw [hl.1]; exact (((OnlyUnit.setDec _ _ _).reply _ _).takeDraws _).setWork _
  | decEnd k hl => rw [hl.1]; exact (OnlyUnit.setDec _ _ _).reply _ _
  | decEndTruncated k hl => rw [hl.1]; exact OnlyUnit.raise _ _ _

end Frame

/-- Settles O47: each effect of a command writes the unit at its port and no other. -/
theorem commandsTouchOnlyTheirUnit : Obligations.CommandsTouchOnlyTheirUnit :=
  fun _ _ _ hi h => (exec_cases hi h).onlyUnit

section Replies

/-- The output stream of the unit at a port; the mask unit has none (10_state.md R25, R33, R40). -/
def State.outAt (s : State) : Port → Bytes
  | .enc k => (s.enc k).out
  | .dec k => (s.dec k).out
  | .mask => []

/-- The instruction is the legal reset of the unit at the port (30_encoding.md R84). -/
def IsResetOf (i : Instr) : Port → Prop
  | .enc _ => i = .encReset []
  | .dec _ => i = .decReset [0x00#8] ∨ i = .decReset [0x01#8]
  | .mask => False

variable {c : Collaborators} {i : Instr} {s t : State}

theorem State.outAt_refuse (s : State) (p : Port) : (s.refuse p).outAt p = s.outAt p := by
  cases p <;> simp [State.outAt]

theorem verifyOperand_some {operand : Bytes} {verify : Bool} (h : verifyOperand operand = some verify) :
    operand = [0x00#8] ∨ operand = [0x01#8] := by
  unfold verifyOperand at h
  split at h
  · next h0 => exact .inl h0
  · split at h
    · next h1 => exact .inr h1
    · cases h

/-- A command answers once, at its own port, and unless it is that unit's reset the output grows by what the answer carries. -/
theorem CommandEffect.answers (h : CommandEffect c s i t) :
    ∃ r, Answered s.port r s t ∧ (¬ IsResetOf i s.port → t.outAt s.port = s.outAt s.port ++ r.bytes) := by
  cases h with
  | refused =>
    refine ⟨.refused, State.refuse_responses _ _, fun _ => ?_⟩
    rw [State.outAt_refuse]
    exact (List.append_nil _).symm
  | droppedEnc | droppedDec => exact ⟨.dropped, rfl, fun _ => (List.append_nil _).symm⟩
  | encReset k hp => rw [hp]; exact ⟨.ok idFrame, rfl, fun hn => absurd rfl hn⟩
  | encWriteFails k chunk hl =>
    rw [hl.1]
    exact ⟨.err .compressionFailure, rfl, fun _ => by simp [State.outAt, Response.bytes]⟩
  | encWriteEmits k chunk hl =>
    rw [hl.1]
    exact ⟨.ok (deliveryFrames c chunk), rfl, fun _ => by simp [State.outAt, Response.bytes]⟩
  | encEnd k hl => rw [hl.1]; exact ⟨.ok [], rfl, fun _ => by simp [State.outAt, Response.bytes]⟩
  | decReset k verify operand hp ho =>
    rw [hp]
    exact ⟨.ok [], rfl, fun hn => absurd ((verifyOperand_some ho).imp (congrArg _) (congrArg _)) hn⟩
  | decWrite k chunk hl =>
    rw [hl.1]
    exact ⟨_, rfl, fun _ => by simp [State.outAt, receive_out]⟩
  | decEnd k hl => rw [hl.1]; exact ⟨.ok [], rfl, fun _ => by simp [State.outAt, Response.bytes]⟩
  | decEndTruncated k hl =>
    rw [hl.1]
    exact ⟨.err .truncatedStream, rfl, fun _ => by simp [State.outAt, Response.bytes]⟩
  | mask data hp => rw [hp]; exact ⟨.okMask (maskOf c data), rfl, fun _ => rfl⟩

theorem Answered.unique {p : Port} {r r' : Response} (h : Answered p r s t) (h' : Answered p r' s t) : r = r' := by
  simpa using h.symm.trans h'

end Replies

/-- Settles O46: each effect of a command appends one answer at its port. -/
theorem oneResponsePerCommand : Obligations.OneResponsePerCommand := by
  intro i s t hi h
  obtain ⟨r, hr, -⟩ := (exec_cases hi h).answers
  exact ⟨r, hr⟩

/-- Settles O53: the answer is the one the command's effect gives, and the output grew by its bytes. -/
theorem outputGrowsByTheReply : Obligations.OutputGrowsByTheReply := by
  intro i s t r hi h hr
  obtain ⟨r', hr', hout⟩ := (exec_cases hi h).answers
  obtain rfl := hr.unique hr'
  refine ⟨fun k hp hn => ?_, fun k hp hn₀ hn₁ => ?_⟩
  · rw [hp] at hout
    exact hout hn
  · rw [hp] at hout
    exact hout fun hreset => hreset.elim hn₀ hn₁

/-- Settles O54: of the ways a decoder can change, only the reset writes `verify` or clears `found`. -/
theorem foundAndVerifyPersist : Obligations.FoundAndVerifyPersist := by
  intro i s t k hi hn h
  have hc := (exec_cases hi h).decChange k
  generalize t.dec k = v at hc ⊢
  cases hc with
  | reset operand => exact absurd rfl (hn operand)
  | received => exact receive_flags
  | unchanged | refused | closed | truncated => exact ⟨rfl, id⟩

/-- Settles O55: three of the ways an encoder can change move the phase, one per row of R39. -/
theorem encoderPhaseTransitions : Obligations.EncoderPhaseTransitions := by
  intro i s t k hi h hne
  have hc := (exec_cases hi h).encChange k
  generalize t.enc k = v at hc hne ⊢
  cases hc with
  | reset => exact .inl ⟨rfl, rfl⟩
  | closed hl => exact .inr (.inl ⟨hl.2.2, rfl, rfl⟩)
  | failed chunk hl => exact .inr (.inr ⟨hl.2.2, ⟨chunk, rfl⟩, rfl, rfl⟩)
  | unchanged | refused | emitted => exact absurd rfl hne

section Phases

theorem nextPhase_drained : nextPhase false [] = .notStarted := rfl

theorem nextPhase_waiting {r : Bytes} (h : r ≠ []) : nextPhase false r = .awaitingIdentifier := by
  simp [nextPhase, h]

variable {c : Collaborators} {u : DecUnit}

/-- What a delivery leaves of a live decoder: an error's registers, the capacity bit, or the commit of a parse (42_decoder.md R143, R158-R160). -/
theorem receive_cases (c : Collaborators) (draw : Nat) (chunk : Bytes) (u : DecUnit) :
    (∃ kind, (receive c draw chunk u).1 = u.failWith kind)
    ∨ (receive c draw chunk u).1 = { u with capacityFault := true }
    ∨ ∃ f ts r, missingIdentifier u.found (u.residual ++ chunk) = false
        ∧ parseFrames (u.residual ++ chunk).length (u.residual ++ chunk) = .ok (f, ts, r)
        ∧ (receive c draw chunk u).1 =
          { u with residual := r, found := u.found || f, out := u.out ++ decodedBytes c u.verify ts,
                   phase := nextPhase (u.found || f) r } := by
  cases hm : missingIdentifier u.found (u.residual ++ chunk) with
  | true => exact .inl ⟨.missingStreamIdentifier, by rw [receive, if_pos hm]⟩
  | false =>
    rw [receive_settle hm]
    cases hp : parseFrames (u.residual ++ chunk).length (u.residual ++ chunk) with
    | error kind => exact .inl ⟨kind, rfl⟩
    | ok v =>
      obtain ⟨f, ts, r⟩ := v
      simp only [settle]
      cases failingTuples c u.verify 0 ts with
      | cons first others => exact .inl ⟨_, rfl⟩
      | nil =>
        simp only
        split
        · exact .inr (.inl rfl)
        · exact .inr (.inr ⟨f, ts, r, trivial, rfl, rfl⟩)

/-- The rows of R38 that a delivery can take from a live phase, or none of them. -/
theorem DecUnit.Inv.receive_phase (h : u.Inv c) (hl : u.phase.isTerminal = false) (draw : Nat) (chunk : Bytes)
    {v : DecUnit} (hv : (Machine.receive c draw chunk u).1 = v) :
    v.phase = u.phase ∨ v.phase = .failed
    ∨ (u.phase = .notStarted ∧ v.found = false ∧ v.residual ≠ [] ∧ v.phase = .awaitingIdentifier)
    ∨ ((u.phase = .notStarted ∨ u.phase = .awaitingIdentifier) ∧ v.found = true ∧ v.phase = .streaming) := by
  have hu := h.livePhase hl
  subst hv
  rcases receive_cases c draw chunk u with ⟨kind, hv⟩ | hv | ⟨f, ts, r, hm, hp, hv⟩ <;> rw [hv]
  · exact .inr (.inl rfl)
  · exact .inl rfl
  cases hfound : u.found with
  | true => rw [hfound] at hu; exact .inl hu.symm
  | false =>
    rw [hfound] at hu hm
    have hphase : u.phase = .notStarted ∨ u.phase = .awaitingIdentifier := by
      by_cases hres : u.residual = []
      · exact .inl (by rw [hu, hres, nextPhase_drained])
      · exact .inr (by rw [hu, nextPhase_waiting hres])
    cases f with
    | true => exact .inr (.inr (.inr ⟨hphase, rfl, rfl⟩))
    | false =>
      obtain ⟨-, rfl⟩ := parseFrames_identifier_first hm hp rfl
      by_cases hdata : u.residual ++ chunk = []
      · have hres := (List.append_eq_nil_iff.1 hdata).1
        have hold : u.phase = .notStarted := by rw [hu, hres, nextPhase_drained]
        have hnext : nextPhase (false || false) (u.residual ++ chunk) = .notStarted := by rw [hdata]; rfl
        exact .inl (hnext.trans hold.symm)
      · have hnext : nextPhase (false || false) (u.residual ++ chunk) = .awaitingIdentifier := nextPhase_waiting hdata
        rcases hphase with hphase | hphase
        · exact .inr (.inr (.inl ⟨hphase, rfl, hdata, hnext⟩))
        · exact .inl (hnext.trans hphase.symm)

end Phases

/-- Settles O56: of the ways a decoder can change, the reset, the end and the delivery move the phase, each along R38's rows. -/
theorem decoderPhaseTransitions : Obligations.DecoderPhaseTransitions := by
  intro i s t k hi hs h hne
  have hc := (exec_cases hi h).decChange k
  generalize t.dec k = v at hc hne ⊢
  cases hc with
  | unchanged | refused => exact absurd rfl hne
  | reset operand => exact .inl ⟨⟨operand, rfl⟩, rfl⟩
  | closed hl hr => exact .inr (.inl ⟨hl.2.2, rfl, hr, rfl⟩)
  | truncated hl hr => exact .inr (.inr (.inl ⟨hl.2.2, rfl, hr, rfl, rfl⟩))
  | received chunk hl =>
    rcases hs.receive_phase hl.2.2 s.draws chunk rfl with hsame | hfailed | hwaits | hstreams
    · exact absurd hsame hne
    · exact .inr (.inr (.inr (.inl ⟨hl.2.2, ⟨chunk, rfl⟩, hfailed⟩)))
    · obtain ⟨hstart, hfound, hres, hphase⟩ := hwaits
      exact .inr (.inr (.inr (.inr (.inl ⟨hstart, ⟨chunk, rfl⟩, hfound, hres, hphase⟩))))
    · obtain ⟨hstart, hfound, hphase⟩ := hstreams
      exact .inr (.inr (.inr (.inr (.inr ⟨hstart, ⟨chunk, rfl⟩, hfound, hphase⟩))))

end Sys2Proof.Machine
end

section
/-! Two states that agree at the port served and in the draws taken: a command does and answers the same in both (10_state.md R22,
60_exceptions.md R202). -/

namespace Sys2Proof.Machine

/-- The two states serve the same port, with the same unit there and the same draws taken. -/
structure SameView (s₁ s₂ : State) : Prop where
  port : s₁.port = s₂.port
  draws : s₁.draws = s₂.draws
  unit : SameUnit s₁.port s₁ s₂

/-- Both outcomes are next states with the same unit at `p` and the same draws, reached with the same answer there. -/
def SameOutcome (p : Port) (s₁ s₂ : State) (o₁ o₂ : Host.Outcome State Fault Refusal) : Prop :=
  ∃ t₁ t₂ r, o₁ = .next t₁ ∧ o₂ = .next t₂ ∧ SameUnit p t₁ t₂ ∧ t₁.draws = t₂.draws
    ∧ Answered p r s₁ t₁ ∧ Answered p r s₂ t₂

section
variable {s₁ s₂ t₁ t₂ : State} {k : Nat}

theorem sameUnit_enc : SameUnit (.enc k) s₁ s₂ ↔ s₁.enc k = s₂.enc k := Iff.rfl
theorem sameUnit_dec : SameUnit (.dec k) s₁ s₂ ↔ s₁.dec k = s₂.dec k := Iff.rfl
theorem sameUnit_mask : SameUnit .mask s₁ s₂ ↔ s₁.maskUnit = s₂.maskUnit := Iff.rfl

theorem SameView.enc (h : SameView s₁ s₂) (hp : s₁.port = .enc k) : s₁.enc k = s₂.enc k := sameUnit_enc.1 (hp ▸ h.unit)
theorem SameView.dec (h : SameView s₁ s₂) (hp : s₁.port = .dec k) : s₁.dec k = s₂.dec k := sameUnit_dec.1 (hp ▸ h.unit)

theorem SameUnit.refuse {p : Port} (h : SameUnit p s₁ s₂) : SameUnit p (s₁.refuse p) (s₂.refuse p) := by
  cases p with
  | enc k => rw [sameUnit_enc] at h ⊢; simp only [State.enc_refuse, h]
  | dec k => rw [sameUnit_dec] at h ⊢; simp only [State.dec_refuse, h]
  | mask => simp [sameUnit_mask]

theorem sameUnit_setEnc (u : EncUnit) : SameUnit (.enc k) (s₁.setEnc k u) (s₂.setEnc k u) := by
  rw [sameUnit_enc, State.enc_setEnc_self, State.enc_setEnc_self]

theorem sameUnit_setDec (u : DecUnit) : SameUnit (.dec k) (s₁.setDec k u) (s₂.setDec k u) := by
  rw [sameUnit_dec, State.dec_setDec_self, State.dec_setDec_self]

/-- The same answer, given in states that have the same unit and nothing answered yet. -/
theorem SameOutcome.reply {p : Port} (r : Response) (hu : SameUnit p t₁ t₂) (hd : t₁.draws = t₂.draws)
    (h₁ : t₁.responses = s₁.responses) (h₂ : t₂.responses = s₂.responses) :
    SameOutcome p s₁ s₂ (.next (t₁.reply p r)) (.next (t₂.reply p r)) := by
  have hu' : SameUnit p (t₁.reply p r) (t₂.reply p r) := by cases p <;> exact hu
  exact ⟨_, _, r, rfl, rfl, hu', hd, by simp [Answered, h₁], by simp [Answered, h₂]⟩

/-- The unit in the same state before, the same values written to it and the same answer. -/
theorem SameView.replySetEnc (h : SameView s₁ s₂) (n : Nat) (u : EncUnit) (r : Response) :
    SameOutcome (.enc k) s₁ s₂ (.next (((s₁.takeDraws n).setEnc k u).reply (.enc k) r))
      (.next (((s₂.takeDraws n).setEnc k u).reply (.enc k) r)) :=
  .reply r (sameUnit_setEnc u) (congrArg (· + n) h.draws) rfl rfl

theorem SameView.replySetDec (h : SameView s₁ s₂) (u : DecUnit) (r : Response) :
    SameOutcome (.dec k) s₁ s₂ (.next ((s₁.setDec k u).reply (.dec k) r)) (.next ((s₂.setDec k u).reply (.dec k) r)) :=
  .reply r (sameUnit_setDec u) h.draws rfl rfl

theorem SameView.refuse (h : SameView s₁ s₂) :
    SameOutcome s₁.port s₁ s₂ (.next (s₁.refuse s₁.port)) (.next (s₂.refuse s₁.port)) :=
  ⟨_, _, .refused, rfl, rfl, h.unit.refuse, by simp [h.draws], State.refuse_responses _ _, State.refuse_responses _ _⟩

theorem SameView.drop (h : SameView s₁ s₂) :
    SameOutcome s₁.port s₁ s₂ (.next (s₁.drop s₁.port)) (.next (s₂.drop s₁.port)) :=
  .reply .dropped h.unit h.draws rfl rfl

/-- Admission decides alike in both states, so it is enough that the admitted bodies agree. -/
theorem SameView.admitEnc (h : SameView s₁ s₂) {body₁ body₂ : Nat → Host.Outcome State Fault Refusal}
    (hb : ∀ k, s₁.port = .enc k → SameOutcome (.enc k) s₁ s₂ (body₁ k) (body₂ k)) :
    SameOutcome s₁.port s₁ s₂ (Machine.admitEnc s₁ body₁) (Machine.admitEnc s₂ body₂) := by
  have hr := h.refuse
  have hd := h.drop
  unfold Machine.admitEnc
  rw [← h.port]
  cases hp : s₁.port with
  | dec k | mask => simpa only [hp] using hr
  | enc k =>
    rw [hp] at hr hd
    simp only [← h.enc hp]
    split
    · cases (s₁.enc k).phase with
      | opened => exact hb k hp
      | closed => exact hr
      | failed => exact hd
    · exact hr

theorem SameView.admitDec (h : SameView s₁ s₂) {body₁ body₂ : Nat → Host.Outcome State Fault Refusal}
    (hb : ∀ k, s₁.port = .dec k → SameOutcome (.dec k) s₁ s₂ (body₁ k) (body₂ k)) :
    SameOutcome s₁.port s₁ s₂ (Machine.admitDec s₁ body₁) (Machine.admitDec s₂ body₂) := by
  have hr := h.refuse
  have hd := h.drop
  unfold Machine.admitDec
  rw [← h.port]
  cases hp : s₁.port with
  | enc k | mask => simpa only [hp] using hr
  | dec k =>
    rw [hp] at hr hd
    simp only [← h.dec hp]
    split
    · cases (s₁.dec k).phase with
      | notStarted | awaitingIdentifier | streaming => exact hb k hp
      | closed => exact hr
      | failed => exact hd
    · exact hr

variable (c : Collaborators)

theorem SameView.encReset (h : SameView s₁ s₂) (operand : Bytes) :
    SameOutcome s₁.port s₁ s₂ (execEncReset operand s₁) (execEncReset operand s₂) := by
  have hr := h.refuse
  unfold execEncReset
  rw [← h.port]
  cases hp : s₁.port with
  | dec k | mask => simpa only [hp] using hr
  | enc k =>
    rw [hp] at hr
    dsimp only
    split
    · exact h.replySetEnc 0 EncUnit.fresh (.ok idFrame)
    · exact hr

theorem SameView.decReset (h : SameView s₁ s₂) (operand : Bytes) :
    SameOutcome s₁.port s₁ s₂ (execDecReset operand s₁) (execDecReset operand s₂) := by
  have hr := h.refuse
  unfold execDecReset
  rw [← h.port]
  cases hp : s₁.port with
  | enc k | mask => simpa only [hp] using hr
  | dec k =>
    rw [hp] at hr
    cases verifyOperand operand with
    | some verify => exact h.replySetDec (DecUnit.fresh verify) (.ok [])
    | none => exact hr

theorem SameView.encWrite (h : SameView s₁ s₂) (chunk : Bytes) :
    SameOutcome s₁.port s₁ s₂ (Machine.encWrite c chunk s₁) (Machine.encWrite c chunk s₂) := by
  refine h.admitEnc fun k hp => ?_
  simp only [← h.draws]
  split
  · simp only [State.raise, State.enc_takeDraws, ← h.enc hp]
    exact h.replySetEnc _ _ _
  · simp only [State.emitEnc, State.enc_takeDraws, ← h.enc hp]
    exact h.replySetEnc _ _ _

theorem SameView.encEnd (h : SameView s₁ s₂) (operand : Bytes) :
    SameOutcome s₁.port s₁ s₂ (execEncEnd operand s₁) (execEncEnd operand s₂) := by
  unfold execEncEnd
  split
  · refine h.admitEnc fun k hp => ?_
    rw [← h.enc hp]
    exact h.replySetEnc 0 _ _
  · rw [← h.port]
    exact h.refuse

theorem SameView.decWrite (h : SameView s₁ s₂) (chunk : Bytes) :
    SameOutcome s₁.port s₁ s₂ (Machine.decWrite c chunk s₁) (Machine.decWrite c chunk s₂) := by
  refine h.admitDec fun k hp => ?_
  rw [deliver_eq, deliver_eq, ← h.dec hp, ← h.draws]
  exact ⟨_, _, _, rfl, rfl, sameUnit_setDec (s₁ := s₁) (s₂ := s₂) _, congrArg (· + _) h.draws, rfl, rfl⟩

theorem SameView.decEnd (h : SameView s₁ s₂) (operand : Bytes) :
    SameOutcome s₁.port s₁ s₂ (execDecEnd operand s₁) (execDecEnd operand s₂) := by
  unfold execDecEnd
  split
  · refine h.admitDec fun k hp => ?_
    simp only [State.raise, ← h.dec hp]
    split
    · exact h.replySetDec _ _
    · exact h.replySetDec _ _
  · rw [← h.port]
    exact h.refuse

theorem SameView.mask (h : SameView s₁ s₂) (data : Bytes) :
    SameOutcome s₁.port s₁ s₂ (maskCommand c data s₁) (maskCommand c data s₂) := by
  have hr := h.refuse
  have hu := h.unit
  unfold maskCommand
  rw [← h.port]
  cases hp : s₁.port with
  | enc k | dec k => simpa only [hp] using hr
  | mask =>
    rw [hp] at hu
    exact .reply _ hu h.draws rfl rfl

theorem SameView.execWith (h : SameView s₁ s₂) {i : Instr} (hi : i.isFrame = false) :
    SameOutcome s₁.port s₁ s₂ (Machine.execWith c i s₁) (Machine.execWith c i s₂) := by
  cases i with
  | frameStreamId _ | frameCompressed _ | frameUncompressed _ | frameUnskippable _ _ | frameSkippable _ _ | framePadding _ =>
    exact nomatch hi
  | encReset operand => exact h.encReset operand
  | encWrite chunk => exact h.encWrite c chunk
  | encEnd operand => exact h.encEnd operand
  | decReset operand => exact h.decReset operand
  | decWrite chunk => exact h.decWrite c chunk
  | decEnd operand => exact h.decEnd operand
  | mask data => exact h.mask c data

end

/-- Settles O48: every command acts alike in two states with the same view. -/
theorem unitsActIndependently : Obligations.UnitsActIndependently := by
  intro i s₁ s₂ t₁ t₂ hi hp hd hu h₁ h₂
  obtain ⟨u₁, u₂, r, hu₁, hu₂, hunit, hdraws, hr₁, hr₂⟩ :=
    (SameView.mk hp hd hu).execWith Config.platform hi
  rw [← execUsesPlatform, h₁] at hu₁
  rw [← execUsesPlatform, h₂] at hu₂
  cases hu₁
  cases hu₂
  exact ⟨hunit, hdraws, r, hr₁, hr₂⟩

end Sys2Proof.Machine
end

section
/-! The mask unit and the status words (10_state.md R40, R46). -/

namespace Sys2Proof.Machine

theorem exec_mask_atPort (data : Bytes) {s : State} (hp : s.port = .mask) :
    exec (.mask data) s = .next (s.reply .mask (.okMask (maskOf Config.platform data))) := by
  rw [exec_mask, maskCommand, hp]

/-- Settles O10: the mask command is a reply and nothing else. -/
theorem maskAnswersAndChangesNothing : Obligations.MaskAnswersAndChangesNothing :=
  fun data _ hp => exec_mask_atPort data hp

theorem State.statusWord_reply (s : State) (p q : Port) (r : Response) :
    (s.reply p r).statusWord q = s.statusWord q := by
  cases q <;> rfl

/-! ### The fields of the two layouts -/

/-- Each field of `ENC_STATUS` holds the code of its register. -/
theorem encStatus_layout (u : EncUnit) :
    (encStatus u).extractLsb' 0 2 = BitVec.ofNat 2 (encPhaseCode u.phase) ∧ (encStatus u).extractLsb' 2 2 = 0#2
    ∧ (encStatus u).extractLsb' 4 4 = BitVec.ofNat 4 (errRegisterCode u.err)
    ∧ (encStatus u).getLsbD 8 = u.protocolFault ∧ (encStatus u).extractLsb' 9 7 = 0#7 := by
  simp (disch := omega) only [encStatus, BitVec.extractLsb'_append_eq_of_le, BitVec.extractLsb'_append_eq_of_add_le,
    BitVec.extractLsb'_eq_self, BitVec.getLsbD_append, BitVec.getLsbD_ofBool, Nat.reduceSub, Nat.reduceLT, if_true,
    if_false, decide_true, Bool.true_and, and_self]

/-- Each field of `DEC_STATUS` holds the code of its register. -/
theorem decStatus_layout (u : DecUnit) :
    (decStatus u).extractLsb' 0 3 = BitVec.ofNat 3 (decPhaseCode u.phase) ∧ (decStatus u).getLsbD 3 = u.found
    ∧ (decStatus u).getLsbD 4 = u.verify ∧ (decStatus u).extractLsb' 5 3 = 0#3
    ∧ (decStatus u).extractLsb' 8 4 = BitVec.ofNat 4 (errRegisterCode u.err)
    ∧ (decStatus u).getLsbD 12 = u.protocolFault ∧ (decStatus u).getLsbD 13 = u.capacityFault
    ∧ (decStatus u).extractLsb' 14 2 = 0#2 := by
  simp (disch := omega) only [decStatus, BitVec.extractLsb'_append_eq_of_le, BitVec.extractLsb'_append_eq_of_add_le,
    BitVec.extractLsb'_eq_self, BitVec.getLsbD_append, BitVec.getLsbD_ofBool, Nat.reduceSub, Nat.reduceLT, if_true,
    if_false, decide_true, Bool.true_and, and_self]

/-- Settles O59: the two layouts, the codes of R190 in their `err` fields, and that a `MASK` is a reply, which no status word shows. -/
theorem statusWordFields : Obligations.StatusWordFields := by
  have hcodes : ∀ x ∈ [(none, 0#4), (some .missingStreamIdentifier, 1#4), (some .invalidStreamIdentifier, 2#4),
      (some .unskippableFrame, 3#4), (some .checksumMismatch, 4#4), (some .truncatedStream, 5#4),
      (some .compressionFailure, 6#4), (some .decompressionFailure, 7#4), (some ErrorKind.shortDataFrame, 8#4)],
      BitVec.ofNat 4 (errRegisterCode x.1) = x.2 := by decide
  refine ⟨fun u => ?_, fun u => ?_, fun x hx => ⟨fun u hu => ?_, fun u hu => ?_⟩,
    fun s k => ⟨State.statusWord_enc s k, State.statusWord_dec s k⟩, State.statusWord_mask,
    fun data s hp => ⟨_, exec_mask_atPort data hp, fun p => State.statusWord_reply s _ p _⟩⟩
  · obtain ⟨hphase, hlow, -, hfault, hhigh⟩ := encStatus_layout u
    exact ⟨by rw [hphase]; cases u.phase <;> rfl, hlow, hfault, hhigh⟩
  · obtain ⟨hphase, hfound, hverify, hlow, -, hfault, hcapacity, hhigh⟩ := decStatus_layout u
    exact ⟨by rw [hphase]; cases u.phase <;> rfl, hfound, hverify, hlow, hfault, hcapacity, hhigh⟩
  · obtain ⟨-, -, herr, -⟩ := encStatus_layout u
    rw [herr, hu, hcodes x hx]
  · obtain ⟨-, -, -, -, herr, -⟩ := decStatus_layout u
    rw [herr, hu, hcodes x hx]

end Sys2Proof.Machine
end

section
/-! The bound on what a decoder buffers between deliveries (20_memory.md R61). -/

namespace Sys2Proof.Machine

theorem complete_eq_false_iff (data : Bytes) (c : Nat) :
    complete data c = false ↔ data.length - c < 4 ∨ data.length - c < 4 + payloadLength data c := by
  rw [complete, decide_eq_false_iff_not, not_and_or, not_le, not_le]

/-- What is too short to be a frame lacks at least one byte of the longest frame, a header and `2^24 - 1` bytes of payload (R71, R80). -/
theorem length_sub_le_of_incomplete {data : Bytes} {c : Nat} (h : complete data c = false) :
    data.length - c ≤ 3 + (2 ^ 24 - 1) := by
  have hmax : payloadLength data c < 2 ^ 24 := le24_lt data (c + 1)
  rcases (complete_eq_false_iff data c).mp h with hheader | hpayload
  · omega
  · omega

/-- Settles O40: a residual holds no complete frame, so it is shorter than the longest one. -/
theorem residualBound : Obligations.ResidualBound :=
  fun _ _ hinv => length_sub_le_of_incomplete hinv.residualIncomplete

end Sys2Proof.Machine
end

section
/-! Decode and encode agree, for frames and for command packets, in both directions (30_encoding.md R70-R73, R77, R80, R84, R87). -/

namespace Sys2Proof

open Sys2Proof.Machine

section Commands
variable {cmd : Byte} {operand : Bytes} {i : Instr}

/-- The code and operand an encodable command is laid out with. -/
theorem encode_command (hf : i.isFrame = false) (he : i.encodable = true) :
    ∃ cmd operand, encode i = encodePacket cmd operand ∧ operand.length < 2 ^ 32 ∧ commandInstr cmd operand = some i := by
  cases i with
  | encReset p => exact Laws.EncodedHead.encReset p he
  | encWrite p => exact Laws.EncodedHead.encWrite p he
  | encEnd p => exact Laws.EncodedHead.encEnd p he
  | decReset p => exact Laws.EncodedHead.decReset p he
  | decWrite p => exact Laws.EncodedHead.decWrite p he
  | decEnd p => exact Laws.EncodedHead.decEnd p he
  | mask p => exact Laws.EncodedHead.mask p he
  | frameStreamId _ | frameCompressed _ | frameUncompressed _ | frameUnskippable _ _ | frameSkippable _ _ | framePadding _ =>
    cases hf

/-- The command that a code of R84's table selects is laid out with that code. -/
theorem encode_commandInstr (hc : commandInstr cmd operand = some i) (hn : operand.length < 2 ^ 32) :
    encode i = encodePacket cmd operand ∧ i.encodable = true := by
  have hfits : operandFits operand = true := decide_eq_true hn
  unfold commandInstr at hc
  repeat' split at hc
  all_goals cases hc
  all_goals
    subst cmd
    exact ⟨rfl, hfits⟩

theorem encodePacket_operandLength (cmd : Byte) (hn : operand.length < 2 ^ 32) :
    le32Nat (encodePacket cmd operand) 1 = operand.length := by
  have hread := le32Nat_pack32 (BitVec.ofNat 32 operand.length) operand
  rwa [BitVec.toNat_ofNat, Nat.mod_eq_of_lt hn] at hread

end Commands

/-- The frame that a type code selects is a frame laid out with that code, which lies in the range its class keeps (R77). -/
theorem encode_frameInstr (t : Byte) {p : Bytes} (hn : p.length < 2 ^ 24) :
    encode (frameInstr t p) = encodeFrame t p ∧ (frameInstr t p).isFrame = true ∧ (frameInstr t p).encodable = true := by
  have hfits : payloadFits p = true := decide_eq_true hn
  unfold frameInstr
  rcases classify_cases t with ⟨rfl, hc⟩ | ⟨rfl, hc⟩ | ⟨rfl, hc⟩ | ⟨rfl, hc⟩ | ⟨ht, hc⟩ | ⟨ht, hc⟩ <;> rw [hc]
  · exact ⟨rfl, rfl, hfits⟩
  · exact ⟨rfl, rfl, hfits⟩
  · exact ⟨rfl, rfl, hfits⟩
  · exact ⟨rfl, rfl, hfits⟩
  · exact ⟨rfl, rfl, Bool.and_eq_true_iff.2 ⟨ht, hfits⟩⟩
  · exact ⟨rfl, rfl, Bool.and_eq_true_iff.2 ⟨ht, hfits⟩⟩

/-- Settles O2: an encodable frame is laid out with a type code and a payload, which the decoder reads back. -/
theorem frameDecodeOfEncode : Obligations.FrameDecodeOfEncode := by
  intro i rest hf he
  obtain ⟨t, p, hlayout, hn, rfl⟩ := encode_frame hf he
  rw [hlayout, decodeFrame_encodeFrame t p rest hn]

/-- Settles O3: an encodable command is laid out with a code and an operand, which the decoder reads back. -/
theorem packetDecodeOfEncode : Obligations.PacketDecodeOfEncode := by
  intro i hf he
  obtain ⟨cmd, operand, hlayout, hn, hc⟩ := encode_command hf he
  rw [hlayout, decodePacket_encodePacket cmd operand hn hc]

/-- Settles O4: what decodes is a layout of some code, and the instruction that code selects is laid out the same way. -/
theorem decodedBytesAreTheEncoding : Obligations.DecodedBytesAreTheEncoding := by
  refine ⟨fun data rest i h => ?_, fun packet i h => ?_⟩
  · obtain ⟨t, p, rfl, hn, hdata⟩ := decodeFrame_inv h
    obtain ⟨hlayout, hframe, hencodable⟩ := encode_frameInstr t hn
    exact ⟨hlayout ▸ hdata, hframe, hencodable⟩
  · obtain ⟨cmd, operand, hc, hn, hpacket⟩ := decodePacket_inv h
    obtain ⟨hlayout, hencodable⟩ := encode_commandInstr hc hn
    exact ⟨hpacket.trans hlayout.symm, decodePacket_isFrame h, hencodable⟩

/-- Settles O1: each word is the encoding of the instruction it stands for, and decodes to it. -/
theorem writtenWordsDecode : Obligations.WrittenWordsDecode :=
  ⟨packetDecodeOfEncode (.encReset []) rfl rfl, packetDecodeOfEncode (.encWrite [0x61#8, 0x62#8, 0x63#8]) rfl rfl,
    packetDecodeOfEncode (.encEnd []) rfl rfl, packetDecodeOfEncode (.decReset [0x01#8]) rfl rfl,
    packetDecodeOfEncode (.decEnd []) rfl rfl, packetDecodeOfEncode (.mask [0x61#8]) rfl rfl,
    frameDecodeOfEncode (.frameStreamId magic) [] rfl rfl,
    frameDecodeOfEncode (.framePadding [0xAA#8, 0xBB#8]) [0x77#8] rfl rfl,
    frameDecodeOfEncode (.frameUnskippable 0x10#8 []) [] rfl rfl⟩

/-- Settles O5: four codes have a class of their own, and a class keeps the codes of each reserved range. -/
theorem typeCodeRanges : Obligations.TypeCodeRanges := by
  intro t
  have hcode {n : Nat} (hn : n < 2 ^ 8) (ht : t.toNat = n) : t = BitVec.ofNat 8 n :=
    BitVec.eq_of_toNat_eq (by rw [ht, BitVec.toNat_ofNat, Nat.mod_eq_of_lt hn])
  refine ⟨fun h => ?_, fun h => ?_, fun hlo hhi => classify_unskippable (decide_eq_true ⟨hlo, hhi⟩),
    fun hlo hhi => classify_skippable (decide_eq_true ⟨hlo, hhi⟩), fun h => ?_, fun h => ?_⟩
  · rw [hcode (by decide) h, classify_compressed]
  · rw [hcode (by decide) h, classify_uncompressed]
  · rw [hcode (by decide) h, classify_padding]
  · rw [hcode (by decide) h, classify_identifier]

/-- An `Ok` response that `LE32` can count is laid out like a packet of code `00` (R85). -/
theorem responsePacket_ok {b : Bytes} (hn : b.length < 2 ^ 32) : responsePacket (.ok b) = some (encodePacket 0x00#8 b) :=
  if_pos hn

/-- Settles O60: an `Ok` response is laid out like a packet; every other response is a fixed head. -/
theorem responsePackets : Obligations.ResponsePackets :=
  ⟨fun b hn => ⟨_, responsePacket_ok hn, rfl, encodePacket_length 0x00#8 b, encodePacket_operandLength 0x00#8 hn⟩,
    fun _ => rfl, rfl, rfl, rfl, rfl, rfl, rfl, rfl, rfl, rfl, rfl⟩

end Sys2Proof
end

section
/-! The frame an encoder makes of a block: which format is selected, how long the frame is, and what the decoder reads from it
(30_encoding.md R73, R74, R82, 41_encoder.md R114-R116, 90_conflicts.md C8). -/

namespace Sys2Proof.Machine

/-- The two outcomes of format selection, on either side of the threshold (R114). -/
theorem selectFormat_cases (block compressed : Bytes) :
    (formatThreshold block.length ≤ compressed.length ∧ selectFormat block compressed = (0x01#8, block))
    ∨ (compressed.length < formatThreshold block.length ∧ selectFormat block compressed = (0x00#8, compressed)) := by
  rcases Nat.lt_or_ge compressed.length (formatThreshold block.length) with h | h
  · exact .inr ⟨h, if_neg (Nat.not_le.2 h)⟩
  · exact .inl ⟨h, if_pos h⟩

/-- The threshold is `7 * len / 8` rounded up, so real division selects the same format (90_conflicts.md C8). -/
theorem formatThreshold_le_iff {len n : Nat} : formatThreshold len ≤ n ↔ 7 * len ≤ 8 * n := by
  unfold formatThreshold; omega

/-- The frame instruction of the type an encoder selects. -/
theorem frameInstr_selectFormat (block compressed payload : Bytes) :
    frameInstr (selectFormat block compressed).1 payload =
      if (selectFormat block compressed).1 = 0x01#8 then .frameUncompressed payload else .frameCompressed payload := by
  rcases selectFormat_cases block compressed with ⟨_, h⟩ | ⟨_, h⟩ <;> rw [h] <;> rfl

section Payload
variable (c : Collaborators) (block compressed : Bytes)

theorem framePayload_length :
    (framePayload c block compressed).length = 4 + (selectFormat block compressed).2.length := by
  rw [framePayload, List.length_append, pack32_length]

theorem checksumField_framePayload : checksumField (framePayload c block compressed) = maskOf c block :=
  le32_pack32 _ _

theorem blockField_framePayload :
    blockField (framePayload c block compressed) = (selectFormat block compressed).2 := by
  rw [blockField, memRead, framePayload_length, Nat.add_sub_cancel_left]
  exact List.take_length

theorem dataFrame_type : byteAt (dataFrame c block compressed) 0 = (selectFormat block compressed).1 := rfl

end Payload

theorem dataFrame_payloadLength (c : Collaborators) {block : Bytes} (compressed : Bytes) (h : block.length ≤ maxBlock) :
    payloadLength (dataFrame c block compressed) 0 = 4 + (selectFormat block compressed).2.length := by
  have hread := encodeFrame_payloadLength (selectFormat block compressed).1 _ [] (framePayload_fits c compressed h)
  rwa [List.append_nil, ← dataFrame_eq, framePayload_length] at hread

/-- Settles O16: the frame's payload is the checksum and the block bytes chosen, and its type is the format's. -/
theorem encodedFrameIsReadBack : Obligations.EncodedFrameIsReadBack := by
  intro c block compressed rest h
  refine ⟨framePayload c block compressed, ?_, ?_, checksumField_framePayload c block compressed,
    blockField_framePayload c block compressed⟩
  · rw [dataFrame_eq, decodeFrame_encodeFrame _ _ _ (framePayload_fits c compressed h), frameInstr_selectFormat]
  · rw [framePayload_length]
    exact Nat.le_add_right 4 _

/-- Settles O17: the block's own length bounds an uncompressed frame, the threshold a compressed one. -/
theorem encodedFrameSizes : Obligations.EncodedFrameSizes := by
  intro c block compressed hlo hhi
  rw [dataFrame_type, dataFrame_payloadLength c compressed hhi]
  rcases selectFormat_cases block compressed with ⟨hpays, h⟩ | ⟨hpays, h⟩
  · rw [formatThreshold_le_iff] at hpays
    rw [h]
    dsimp only
    exact .inl ⟨rfl, by omega, by omega, hpays⟩
  · rw [← Nat.not_le, formatThreshold_le_iff, Nat.not_le] at hpays
    rw [h]
    dsimp only
    exact .inr ⟨rfl, by omega, by omega, hpays⟩

end Sys2Proof.Machine
end

section
/-! Illegal packets (30_encoding.md R84, R86, 10_state.md R41): a command with any effect but the refusal is one R84 lists for its unit. -/

namespace Sys2Proof.Machine

section Legal
variable {i : Instr} (k : Nat)

theorem legalPacket_encLive (hi : i = .encEnd [] ∨ ∃ chunk, i = .encWrite chunk) (he : i.encodable = true) :
    LegalPacket (.enc k) (encode i) := by
  rcases hi with rfl | ⟨chunk, rfl⟩
  · exact .inr (.inl rfl)
  · exact .inr (.inr ⟨chunk, of_decide_eq_true he, rfl⟩)

theorem legalPacket_decLive (hi : i = .decEnd [] ∨ ∃ chunk, i = .decWrite chunk) (he : i.encodable = true) :
    LegalPacket (.dec k) (encode i) := by
  rcases hi with rfl | ⟨chunk, rfl⟩
  · exact .inr (.inr (.inl rfl))
  · exact .inr (.inr (.inr ⟨chunk, of_decide_eq_true he, rfl⟩))

theorem legalPacket_decReset {operand : Bytes} {verify : Bool} (ho : verifyOperand operand = some verify) :
    LegalPacket (.dec k) (encode (.decReset operand)) := by
  rcases verifyOperand_some ho with rfl | rfl
  · exact .inl rfl
  · exact .inr (.inl rfl)

end Legal

/-- The one effect an illegal packet can have is the refusal. -/
theorem CommandEffect.refused_or_legalPacket {c : Collaborators} {i : Instr} {s t : State} (h : CommandEffect c s i t)
    (he : i.encodable = true) : t = s.refuse s.port ∨ LegalPacket s.port (encode i) := by
  cases h with
  | refused => exact .inl rfl
  | droppedEnc _ k hp _ _ hi => rw [hp]; exact .inr (legalPacket_encLive k hi he)
  | droppedDec _ k hp _ _ hi => rw [hp]; exact .inr (legalPacket_decLive k hi he)
  | encReset k hp => rw [hp]; exact .inr (.inl rfl)
  | encWriteFails k chunk hl | encWriteEmits k chunk hl =>
    rw [hl.1]; exact .inr (legalPacket_encLive k (.inr ⟨chunk, rfl⟩) he)
  | encEnd k hl => rw [hl.1]; exact .inr (legalPacket_encLive k (.inl rfl) he)
  | decReset k _ _ hp ho => rw [hp]; exact .inr (legalPacket_decReset k ho)
  | decWrite k chunk hl => rw [hl.1]; exact .inr (legalPacket_decLive k (.inr ⟨chunk, rfl⟩) he)
  | decEnd k hl | decEndTruncated k hl => rw [hl.1]; exact .inr (legalPacket_decLive k (.inl rfl) he)
  | mask data hp => rw [hp]; exact .inr ⟨data, of_decide_eq_true he, rfl⟩

/-- An illegal packet is refused whether or not it decodes: what it decodes to is encoded by it, so is illegal too. -/
theorem step_illegalPacket {s : State} {p : Port} {packet : Bytes} {rest : List (Port × Bytes)}
    (hq : s.pending = (p, packet) :: rest) (hl : ¬ LegalPacket p packet) :
    step s = .next (State.refuse { s with pending := rest, port := p } p) := by
  cases hd : decodePacket packet with
  | error e => exact step_refuses hq hd
  | ok i =>
    obtain ⟨rfl, hf, he⟩ := decodedBytesAreTheEncoding.2 packet i hd
    obtain ⟨t, ht, heffect⟩ := execWith_command Config.platform { s with pending := rest, port := p } hf
    rw [step_runs hq hd, execUsesPlatform, ht, (heffect.refused_or_legalPacket he).resolve_right hl]

/-- Settles O49: the step is the refusal at the packet's port, which writes that unit's `protocol_fault` and one response. -/
theorem illegalPacketsAreRefused : Obligations.IllegalPacketsAreRefused := by
  intro s p packet rest hq hl
  refine ⟨_, step_illegalPacket hq hl, State.refuse_responses _ p, OnlyUnit.refuse p _, State.refuse_work _ p,
    State.refuse_draws _ p, fun k hp => ?_, fun k hp => ?_, fun hp => ?_⟩
  · rw [State.enc_refuse, if_pos hp]
    rfl
  · rw [State.dec_refuse, if_pos hp]
    rfl
  · rw [State.refuse_maskUnit, if_pos hp]

end Sys2Proof.Machine
end

section
/-! The rotation and the masking transform (00_scope.md R10, 40_mask.md R101, R103, R105). -/

namespace Sys2Proof.Machine

/-! ### The rotation -/

/-- The rotation over natural numbers: the left shift is cut to 32 bits, before the OR or after it. -/
theorem rotr32_toNat (c : Word) (k : Nat) :
    (rotr32 c k).toNat = ((c.toNat >>> k) ||| (c.toNat <<< (32 - k))) % 2 ^ 32 := by
  have hright : (c.toNat >>> k) % 2 ^ 32 = c.toNat >>> k :=
    Nat.mod_eq_of_lt (Nat.lt_of_le_of_lt (Nat.shiftRight_le _ _) c.isLt)
  rw [rotr32, BitVec.toNat_or, BitVec.toNat_ushiftRight, BitVec.toNat_shiftLeft, Nat.or_mod_two_pow, hright]

/-- Bit `i` of the rotation is the bit `k` places above it, counted round the end. -/
theorem getLsbD_rotr32 (c : Word) {k i : Nat} (hk : k ≤ 32) (hi : i < 32) :
    (rotr32 c k).getLsbD i = c.getLsbD ((i + k) % 32) := by
  rw [rotr32, BitVec.getLsbD_or, BitVec.getLsbD_ushiftRight, BitVec.getLsbD_shiftLeft]
  rcases Nat.lt_or_ge (i + k) 32 with h | h
  · have hleft : i < 32 - k := by omega
    simp [hleft, Nat.mod_eq_of_lt h, Nat.add_comm k i]
  · have hleft : ¬ i < 32 - k := by omega
    have hwrap : (i + k) % 32 = i - (32 - k) := by omega
    simp [hleft, hi, hwrap, BitVec.getLsbD_of_ge c (k + i) (by omega)]

/-- Two rotations that make a full turn undo each other. -/
theorem rotr32_rotr32_of_add_eq (c : Word) {j k : Nat} (h : j + k = 32) : rotr32 (rotr32 c j) k = c := by
  refine BitVec.eq_of_getLsbD_eq fun i hi => ?_
  have hturn : ((i + k) % 32 + j) % 32 = i := by omega
  rw [getLsbD_rotr32 _ (by omega) hi, getLsbD_rotr32 _ (by omega) (Nat.mod_lt _ (by decide)), hturn]

/-! ### The transform -/

/-- The late truncation of R101: cutting the shifted value only after the addition. -/
theorem maskTransform_toNat (c : Word) :
    (maskTransform c).toNat = (((c.toNat >>> 15) ||| (c.toNat <<< 17)) + 0xA282EAD8) % 2 ^ 32 := by
  rw [maskTransform, BitVec.toNat_add, rotr32_toNat, Nat.mod_add_mod]
  rfl

theorem maskInverse_maskTransform (c : Word) : maskInverse (maskTransform c) = c := by
  rw [maskInverse, maskTransform, BitVec.add_sub_cancel]
  exact rotr32_rotr32_of_add_eq c rfl

theorem maskTransform_maskInverse (m : Word) : maskTransform (maskInverse m) = m := by
  have hrot : rotr32 (maskInverse m) maskRot = m - maskOffset := rotr32_rotr32_of_add_eq _ rfl
  rw [maskTransform, hrot, BitVec.sub_add_cancel]

theorem maskTransform_injective : Function.Injective maskTransform :=
  Function.LeftInverse.injective maskInverse_maskTransform

/-- Equal masks are equal CRCs, whatever the CRC (R105). -/
theorem maskOf_eq_iff (c : Collaborators) (a b : Bytes) : maskOf c a = maskOf c b ↔ c.crc32c a = c.crc32c b :=
  maskTransform_injective.eq_iff

/-- Settles O9: the rotation and the addition of the offset are undone one by one. -/
theorem maskTransformBijective : Obligations.MaskTransformBijective := by
  refine ⟨maskInverse_maskTransform, maskTransform_maskInverse, maskOf_eq_iff, maskTransform_toNat, fun _ => rfl,
    fun c i hi => ?_, by decide, by decide, by decide, by decide, by decide⟩
  have hturn : ((i + 17) % 32 + 15) % 32 = i := by omega
  rw [getLsbD_rotr32 c (by decide) (Nat.mod_lt _ (by decide)), hturn]

/-- Settles O8: truncating before the addition and after it agree. -/
theorem maskTransformFormula : Obligations.MaskTransformFormula := by
  intro c
  rw [Nat.mod_add_mod, maskTransform_toNat]

end Sys2Proof.Machine
end

section
/-! What an encoder makes of one delivery: its blocks, each block's format and its frame (41_encoder.md R112-R116). -/

namespace Sys2Proof.Machine

/-! ### The blocks -/

theorem splitBlocks_getElem {chunk : Bytes} {k : Nat} (h : k < (splitBlocks chunk).length) :
    (splitBlocks chunk)[k] = blockAt chunk k := by
  simp [splitBlocks]

/-- A block's size is the distance between its two ends (R112). -/
theorem blockAt_eq_memRead (chunk : Bytes) (k : Nat) :
    blockAt chunk k = memRead chunk (k * 65536) (min ((k + 1) * 65536) chunk.length - k * 65536) := by
  have hsize : min maxBlock (chunk.length - k * maxBlock) = min ((k + 1) * 65536) chunk.length - k * 65536 := by
    unfold maxBlock; omega
  rw [blockAt, hsize, maxBlock]

/-- Settles O13: block `k` is the slice at `k * 65536`, which is full unless the delivery ends in it. -/
theorem blocksOfADelivery : Obligations.BlocksOfADelivery := by
  intro chunk
  have hcount : (splitBlocks chunk).length = (chunk.length + 65535) / 65536 := splitBlocks_count chunk
  refine ⟨hcount, splitBlocks_flatten chunk, fun k h => ?_⟩
  rw [splitBlocks_getElem h]
  have hsize : (blockAt chunk k).length = min 65536 (chunk.length - k * 65536) := blockAt_length chunk k
  exact ⟨blockAt_eq_memRead chunk k, fun hinner => by omega, fun hlast => by omega⟩

/-! ### The frame of a block -/

/-- Settles O14: one side of the threshold holds, with its format, and the other side is impossible. -/
theorem formatSelection : Obligations.FormatSelection := by
  intro block compressed
  rcases selectFormat_cases block compressed with ⟨hpays, h⟩ | ⟨hpays, h⟩
  · exact ⟨fun _ => h, fun hlt => absurd hpays (Nat.not_le.2 hlt)⟩
  · exact ⟨fun hle => absurd hpays (Nat.not_lt.2 hle), fun _ => h⟩

/-- Settles O15: the checksum is that of the original block, and the bytes sent are no more than the block's. -/
theorem frameAssembly : Obligations.FrameAssembly := by
  intro c block compressed h
  have hlen := selectFormat_length block compressed
  exact ⟨rfl, by omega⟩

end Sys2Proof.Machine
end

section
/-! What `ENC_WRITE` and `ENC_END` do to the encoder at their port, in each phase (41_encoder.md R111, R117-R120). -/

namespace Sys2Proof.Machine

section
variable {s : State} {k : Nat}

theorem admitEnc_failed (body : Nat → Host.Outcome State Fault Refusal) (hp : s.port = .enc k)
    (hr : (s.enc k).everReset = true) (hf : (s.enc k).phase = .failed) :
    admitEnc s body = .next (s.drop (.enc k)) := by
  simp [admitEnc, hp, hr, hf]

theorem admitEnc_closed (body : Nat → Host.Outcome State Fault Refusal) (hp : s.port = .enc k)
    (hr : (s.enc k).everReset = true) (hc : (s.enc k).phase = .closed) :
    admitEnc s body = .next (s.refuse (.enc k)) := by
  simp [admitEnc, hp, hr, hc]

/-- A refusal at an encoder's port sets its `protocol_fault`, is answered, and writes nothing else (10_state.md R41). -/
theorem State.refuse_enc_sets_protocolFault (s : State) (k : Nat) :
    (s.refuse (.enc k)).enc k = { s.enc k with protocolFault := true }
    ∧ Answered (.enc k) .refused s (s.refuse (.enc k)) ∧ OnlyUnit (.enc k) s (s.refuse (.enc k))
    ∧ (s.refuse (.enc k)).work = s.work ∧ (s.refuse (.enc k)).draws = s.draws :=
  ⟨by simp, State.refuse_responses s _, OnlyUnit.refuse _ s, State.refuse_work s _, State.refuse_draws s _⟩

/-! ### `ENC_WRITE` -/

variable {c : Collaborators} {chunk : Bytes}

theorem anyCompressFails_iff {first n : Nat} :
    anyCompressFails c first n = true ↔ ∃ j < n, (c.compressMayFail && c.compressDraw (first + j)) = true := by
  simp only [anyCompressFails, compressFails, List.any_eq_true, List.mem_range]

/-- A delivery with a failing compressor call (R118). -/
theorem encWrite_fails (hl : LiveEnc s k) (hc : anyCompressFails c s.draws (blockCount chunk.length) = true) :
    ∃ t, encWrite c chunk s = .next t
      ∧ t.enc k = { s.enc k with phase := .failed, err := some .compressionFailure }
      ∧ Answered (.enc k) (.err .compressionFailure) s t ∧ OnlyUnit (.enc k) s t
      ∧ t.work = s.work ∧ t.draws = s.draws + blockCount chunk.length := by
  obtain ⟨hp, hr, ho⟩ := hl
  exact ⟨_, (encWrite_live c chunk hp hr ho).trans (if_pos hc), by simp, rfl, (OnlyUnit.raise _ _ _).afterDraws, rfl, rfl⟩

/-- A delivery none of whose compressor calls fails (R117). -/
theorem encWrite_emits (hl : LiveEnc s k) (hc : anyCompressFails c s.draws (blockCount chunk.length) = false) :
    ∃ t, encWrite c chunk s = .next t
      ∧ t.enc k = { s.enc k with out := (s.enc k).out ++ deliveryFrames c chunk }
      ∧ Answered (.enc k) (.ok (deliveryFrames c chunk)) s t ∧ OnlyUnit (.enc k) s t
      ∧ t.work = s.work ∧ t.draws = s.draws + blockCount chunk.length := by
  obtain ⟨hp, hr, ho⟩ := hl
  exact ⟨_, (encWrite_live c chunk hp hr ho).trans (if_neg (Bool.eq_false_iff.1 hc)), by simp, rfl,
    ((OnlyUnit.setEnc _ _ _).reply _ _).afterDraws, rfl, rfl⟩

/-- The frames of a delivery, each from the slice its block is (R112, R116). -/
theorem deliveryFrames_eq_slices (c : Collaborators) (chunk : Bytes) :
    deliveryFrames c chunk = ((List.range (blockCount chunk.length)).map fun j =>
      dataFrame c ((chunk.drop (65536 * j)).take 65536) (c.compressFn ((chunk.drop (65536 * j)).take 65536))).flatten := by
  have hblock (j : Nat) : blockAt chunk j = (chunk.drop (65536 * j)).take 65536 := by
    rw [blockAt_eq, Nat.mul_comm, maxBlock]
  simp [deliveryFrames, splitBlocks, blockFrame, hblock, Function.comp_def]

/-! ### `ENC_END` -/

/-- The end of a live encoder's stream (R120). -/
theorem encEnd_closes (hl : LiveEnc s k) :
    ∃ t, exec (.encEnd []) s = .next t ∧ t.enc k = { s.enc k with phase := .closed }
      ∧ Answered (.enc k) (.ok []) s t ∧ OnlyUnit (.enc k) s t ∧ t.work = s.work ∧ t.draws = s.draws := by
  obtain ⟨hp, hr, ho⟩ := hl
  exact ⟨_, admitEnc_live _ hp hr ho, by simp, rfl, (OnlyUnit.setEnc _ _ _).reply _ _, rfl, rfl⟩

end

/-- Settles O12: whether one of the draws is a failure decides between the two outcomes of a delivery. -/
theorem encWriteAnswers : Obligations.EncWriteAnswers := by
  intro k chunk frames n fails s hl hn hframes hfails
  obtain rfl : n = blockCount chunk.length := hn
  obtain rfl : frames = deliveryFrames Config.platform chunk :=
    hframes.trans (deliveryFrames_eq_slices Config.platform chunk).symm
  have hcalls : anyCompressFails Config.platform s.draws (blockCount chunk.length) = fails := hfails.symm
  rw [exec_encWrite]
  cases fails with
  | true => exact encWrite_fails hl hcalls
  | false => exact encWrite_emits hl hcalls

/-- Settles O18: the failing call is one of the delivery's, and the failure leaves the output alone. -/
theorem compressionFailureEmitsNothing : Obligations.CompressionFailureEmitsNothing := by
  intro c k chunk s hl hfail
  rw [splitBlocks_count] at hfail
  obtain ⟨t, ht, hunit, hreply, hframe, hwork, -⟩ := encWrite_fails hl (anyCompressFails_iff.2 hfail)
  exact ⟨t, ht, hunit, by rw [hunit], hreply, hframe, hwork⟩

/-- Settles O20: admission drops the delivery in `Failed` and refuses it in `Closed`. -/
theorem encWriteOutsideOpen : Obligations.EncWriteOutsideOpen :=
  fun k _ s hp hr =>
    ⟨fun hf => admitEnc_failed _ hp hr hf,
      fun hc => ⟨_, admitEnc_closed _ hp hr hc, State.refuse_enc_sets_protocolFault s k⟩⟩

end Sys2Proof.Machine
end

section
/-! A whole encoder run: reset, deliveries, end (41_encoder.md R120, R121). -/

namespace Sys2Proof.Machine

section Run
variable {c : Collaborators}

/-- A run goes on from where its first command leaves the machine. -/
theorem runOn_cons {p : Port} {i : Instr} {s t : State} (rest : List Instr) (h : execWith c i (s.onPort p) = .next t) :
    runOn c p (i :: rest) s = runOn c p rest t := by
  rw [runOn, h]

theorem callCount_cons (chunk : Bytes) (chunks : List Bytes) :
    callCount (chunk :: chunks) = blockCount chunk.length + callCount chunks := by
  simp [callCount, splitBlocks_count]

theorem CallsSucceed.left {first m n : Nat} (h : CallsSucceed c first (m + n)) : CallsSucceed c first m :=
  fun j hj => h j (by omega)

theorem CallsSucceed.right {first m n : Nat} (h : CallsSucceed c first (m + n)) : CallsSucceed c (first + m) n :=
  fun j hj => by rw [Nat.add_assoc]; exact h (m + j) (by omega)

/-- Deliveries to one live encoder, one after another, append their frames (R117, R121). -/
theorem runOn_encWrites (k : Nat) (rest : List Instr) {chunks : List Bytes} {s : State}
    (hr : (s.enc k).everReset = true) (ho : (s.enc k).phase = .opened)
    (hc : CallsSucceed c s.draws (callCount chunks)) :
    ∃ t, runOn c (.enc k) (chunks.map .encWrite ++ rest) s = runOn c (.enc k) rest t
      ∧ t.enc k = { s.enc k with out := (s.enc k).out ++ (chunks.map (deliveryFrames c)).flatten } := by
  induction chunks generalizing s with
  | nil => exact ⟨s, rfl, by simp⟩
  | cons chunk chunks ih =>
    rw [callCount_cons] at hc
    obtain ⟨u, hu, hunit, -, -, -, hdraws⟩ :=
      encWrite_emits (s := s.onPort (.enc k)) ⟨rfl, hr, ho⟩ (anyCompressFails_eq_false hc.left)
    rw [State.enc_onPort] at hunit
    obtain ⟨t, ht, hout⟩ := ih (s := u) (by rw [hunit]; exact hr) (by rw [hunit]; exact ho) (by rw [hdraws]; exact hc.right)
    exact ⟨t, (runOn_cons (i := .encWrite chunk) _ hu).trans ht, by simp [hout, hunit]⟩

/-- The reset of an encoder on its own port (70_reset_and_hazards.md R220). -/
theorem encReset_fresh (c : Collaborators) (k : Nat) (s : State) :
    ∃ t, execWith c (.encReset []) (s.onPort (.enc k)) = .next t ∧ t.enc k = EncUnit.fresh ∧ t.draws = s.draws :=
  ⟨(s.onPort (.enc k)).resetEnc k, rfl, by simp, rfl⟩

/-- A run none of whose compressor calls fails leaves the encoder closed, with the identifier frame and the deliveries' frames
(R121). -/
theorem runOn_encoderScript (k : Nat) {chunks : List Bytes} {s : State} (hc : CallsSucceed c s.draws (callCount chunks)) :
    ∃ t, runOn c (.enc k) (encoderScript chunks) s = .next t
      ∧ t.enc k = { EncUnit.fresh with phase := .closed, out := idFrame ++ (chunks.map (deliveryFrames c)).flatten } := by
  obtain ⟨u, hu, hfresh, hdraws⟩ := encReset_fresh c k s
  obtain ⟨v, hv, hout⟩ := runOn_encWrites k [.encEnd []] (s := u) (by rw [hfresh]; rfl) (by rw [hfresh]; rfl)
    (by rw [hdraws]; exact hc)
  rw [hfresh] at hout
  obtain ⟨t, ht, hclosed, -⟩ := encEnd_closes (s := v.onPort (.enc k)) (k := k)
    ⟨rfl, by rw [State.enc_onPort, hout]; rfl, by rw [State.enc_onPort, hout]; rfl⟩
  rw [State.enc_onPort, hout] at hclosed
  refine ⟨t, ?_, hclosed⟩
  calc runOn c (.enc k) (encoderScript chunks) s
      _ = runOn c (.enc k) (chunks.map Instr.encWrite ++ [Instr.encEnd []]) u := runOn_cons _ hu
      _ = runOn c (.enc k) [.encEnd []] v := hv
      _ = .next t := runOn_cons [] ht

end Run

/-- Settles O21: the encoder the run leaves shows its phase and its output. -/
theorem encoderOutputLaw : Obligations.EncoderOutputLaw := by
  intro c k chunks s hc
  obtain ⟨t, ht, hunit⟩ := runOn_encoderScript k hc
  exact ⟨t, ht, by rw [hunit], by rw [hunit]; rfl⟩

/-- Settles O19: admission decides the phases, and the run with no delivery leaves the identifier frame alone. -/
theorem encEndCloses : Obligations.EncEndCloses := by
  refine ⟨fun _ _ hl => encEnd_closes hl, fun _ _ hp hr hf => admitEnc_failed _ hp hr hf, fun k s hp hr hc => ?_,
    fun c k s => ?_, rfl⟩
  · obtain ⟨hunit, hreply, hframe, hwork, -⟩ := State.refuse_enc_sets_protocolFault s k
    exact ⟨_, admitEnc_closed _ hp hr hc, hunit, hreply, hframe, hwork⟩
  · obtain ⟨t, ht, hunit⟩ := runOn_encoderScript (c := c) (chunks := []) (s := s) k fun _ hj => absurd hj (Nat.not_lt_zero _)
    exact ⟨t, ht, by rw [hunit]; rfl, by rw [hunit]⟩

end Sys2Proof.Machine
end

section
/-! The round trip: an encoder's output is a stream of good frames, whose tuples decode to the blocks, and a decoder run of such a stream
closes with what its tuples decode to (41_encoder.md R121-R123). -/

namespace Sys2Proof.Machine

section Frames
variable (c : Collaborators) (block : Bytes)

/-- A block's frame as the instruction the decoder runs for it (R116, 42_decoder.md R146). -/
def blockInstr : Instr :=
  frameInstr (selectFormat block (c.compressFn block)).1 (framePayload c block (c.compressFn block))

/-- The tuple that a block's frame records (42_decoder.md R148, R149). -/
def blockTuple : DataTuple where
  kind := if (selectFormat block (c.compressFn block)).1 = 0x01#8 then .uncompressed else .compressed
  checksumMask := maskOf c block
  block := (selectFormat block (c.compressFn block)).2

/-- An encoder's whole output as the frames it is made of (R121). -/
def outputFrames (chunks : List Bytes) : List Instr :=
  .frameStreamId magic :: (chunks.flatMap splitBlocks).map (blockInstr c)

theorem identifier_contribution : frameContribution (.frameStreamId magic) = .ok (true, []) := by
  rw [frameContribution, if_pos rfl]

theorem blockInstr_contribution : frameContribution (blockInstr c block) = .ok (false, [blockTuple c block]) := by
  have hroom : ¬ (framePayload c block (c.compressFn block)).length < 4 := by rw [framePayload_length]; omega
  rw [blockInstr, frameInstr_selectFormat, blockTuple]
  split <;>
    simp only [frameContribution, if_neg hroom, checksumField_framePayload, blockField_framePayload]

variable {c block}

theorem blockInstr_layout (h : block.length ≤ maxBlock) :
    encode (blockInstr c block) = blockFrame c block ∧ (blockInstr c block).isFrame = true
      ∧ (blockInstr c block).encodable = true := by
  obtain ⟨hlayout, hframe, hencodable⟩ :=
    encode_frameInstr (selectFormat block (c.compressFn block)).1 (framePayload_fits c (c.compressFn block) h)
  exact ⟨by rw [blockInstr, hlayout, blockFrame, dataFrame_eq], hframe, hencodable⟩

/-- A block comes back from its tuple, whichever format was selected, and its checksum is the one stored (R123). -/
theorem decodeTuple_blockTuple (hlaw : LawInverse c) (verify : Bool) (h : block.length ≤ maxBlock) :
    decodeTuple c verify (blockTuple c block) = .ok block := by
  have hdecoded : decodeBlock c (blockTuple c block) = some block := by
    rcases selectFormat_cases block (c.compressFn block) with ⟨_, hs⟩ | ⟨_, hs⟩ <;> rw [blockTuple, hs]
    · rfl
    · exact hlaw block h
  have hmask : (blockTuple c block).checksumMask = maskOf c block := rfl
  simp [decodeTuple, hdecoded, hmask]

end Frames

section Stream
variable {c : Collaborators} {chunks : List Bytes}

theorem length_le_of_mem_blocks {block : Bytes} (h : block ∈ chunks.flatMap splitBlocks) : block.length ≤ maxBlock := by
  obtain ⟨chunk, -, hb⟩ := List.mem_flatMap.1 h
  exact (splitBlocks_length hb).2

theorem flatten_blocks (chunks : List Bytes) : (chunks.flatMap splitBlocks).flatten = chunks.flatten := by
  simp [List.flatMap_def, List.flatten_flatten, Function.comp_def, splitBlocks_flatten]

theorem flatten_blockFrames (c : Collaborators) (chunks : List Bytes) :
    ((chunks.flatMap splitBlocks).map (blockFrame c)).flatten = (chunks.map (deliveryFrames c)).flatten := by
  have hdelivery : deliveryFrames c = fun chunk => ((splitBlocks chunk).map (blockFrame c)).flatten := rfl
  simp [List.flatMap_def, List.map_flatten, List.flatten_flatten, Function.comp_def, hdelivery]

theorem outputFrames_good (c : Collaborators) (chunks : List Bytes) : GoodFrames (outputFrames c chunks) := by
  intro i hi
  rcases List.mem_cons.1 hi with rfl | hi
  · exact ⟨rfl, rfl, _, identifier_contribution⟩
  · obtain ⟨block, hb, rfl⟩ := List.mem_map.1 hi
    obtain ⟨-, hframe, hencodable⟩ := blockInstr_layout (c := c) (length_le_of_mem_blocks hb)
    exact ⟨hframe, hencodable, _, blockInstr_contribution c block⟩

theorem encode_outputFrames (c : Collaborators) (chunks : List Bytes) :
    ((outputFrames c chunks).map encode).flatten = idFrame ++ (chunks.map (deliveryFrames c)).flatten := by
  have hblocks : ((chunks.flatMap splitBlocks).map (blockInstr c)).map encode
      = (chunks.flatMap splitBlocks).map (blockFrame c) := by
    rw [List.map_map]
    exact List.map_congr_left fun block hb => (blockInstr_layout (length_le_of_mem_blocks hb)).1
  rw [outputFrames, List.map_cons, List.flatten_cons, hblocks, flatten_blockFrames]
  rfl

theorem seesIdentifier_outputFrames (c : Collaborators) (chunks : List Bytes) :
    seesIdentifier (outputFrames c chunks) = true :=
  seesIdentifier_cons _ identifier_contribution

theorem batchOf_blockInstrs (c : Collaborators) (blocks : List Bytes) :
    batchOf (blocks.map (blockInstr c)) = blocks.map (blockTuple c) := by
  induction blocks with
  | nil => rfl
  | cons block blocks ih => rw [List.map_cons, batchOf_cons _ (blockInstr_contribution c block), ih]; rfl

theorem batchOf_outputFrames (c : Collaborators) (chunks : List Bytes) :
    batchOf (outputFrames c chunks) = (chunks.flatMap splitBlocks).map (blockTuple c) := by
  rw [outputFrames, batchOf_cons _ identifier_contribution, batchOf_blockInstrs]
  rfl

/-- The tuples of blocks decode to the blocks in order (42_decoder.md R158). -/
theorem decodedBytes_blockTuples (hlaw : LawInverse c) (verify : Bool) {blocks : List Bytes}
    (h : ∀ block ∈ blocks, block.length ≤ maxBlock) :
    decodedBytes c verify (blocks.map (blockTuple c)) = blocks.flatten := by
  induction blocks with
  | nil => rfl
  | cons block blocks ih =>
    obtain ⟨hblock, hblocks⟩ := List.forall_mem_cons.1 h
    rw [List.map_cons, decodedBytes, decodeTuple_blockTuple hlaw verify hblock, List.flatten_cons]
    exact congrArg (block ++ ·) (ih hblocks)

/-- A stream of good frames that begins with an identifier, all of whose tuples decode, is consumed to its end. -/
theorem streamSoFar_good {verify : Bool} {frames : List Instr} (hg : GoodFrames frames)
    (hm : missingIdentifier false (frames.map encode).flatten = false)
    (hd : ∀ x ∈ batchOf frames, ∃ d, decodeTuple c verify x = .ok d) :
    streamSoFar c verify (frames.map encode).flatten = some (seesIdentifier frames, batchOf frames, []) := by
  have hparse := parseFrames_good hg (tail := []) (n := (frames.map encode).flatten.length) (by rw [List.append_nil])
  rw [List.append_nil, parseFrames_incomplete (tail := []) rfl] at hparse
  simp only [Bool.or_false, List.append_nil] at hparse
  rw [streamSoFar, hm, if_neg Bool.false_ne_true, hparse]
  exact if_pos (failingTuples_eq_nil.2 hd)

/-- The whole output of an encoder run is a stream that decodes to the deliveries (R123). -/
theorem streamSoFar_output (hlaw : LawInverse c) (verify : Bool) (chunks : List Bytes) :
    ∃ ts, streamSoFar c verify (idFrame ++ (chunks.map (deliveryFrames c)).flatten) = some (true, ts, [])
      ∧ decodedBytes c verify ts = chunks.flatten := by
  have hdecodes : ∀ x ∈ batchOf (outputFrames c chunks), ∃ d, decodeTuple c verify x = .ok d := by
    intro x hx
    rw [batchOf_outputFrames] at hx
    obtain ⟨block, hb, rfl⟩ := List.mem_map.1 hx
    exact ⟨block, decodeTuple_blockTuple hlaw verify (length_le_of_mem_blocks hb)⟩
  have hstream := streamSoFar_good (outputFrames_good c chunks) (by rw [encode_outputFrames]; rfl) hdecodes
  rw [encode_outputFrames, seesIdentifier_outputFrames, batchOf_outputFrames] at hstream
  refine ⟨_, hstream, ?_⟩
  rw [decodedBytes_blockTuples hlaw verify fun _ => length_le_of_mem_blocks, flatten_blocks]

end Stream

/-! ### A whole decoder run -/

section Run
variable {c : Collaborators} {verify : Bool}

theorem Tracks.fresh (c : Collaborators) (verify : Bool) : Tracks c verify [] (DecUnit.fresh verify) :=
  ⟨rfl, rfl, rfl, rfl, rfl, rfl⟩

/-- Before its end a decoder run has been given all its pieces, from whatever state it starts (42_decoder.md R164,
70_reset_and_hazards.md R221). -/
theorem runOn_decoderScript (hc : c.residualCap = none) (k : Nat) (pieces : List Bytes) (s : State) :
    ∃ t, runOn c (.dec k) (decoderScript verify pieces) s = runOn c (.dec k) [.decEnd []] t
      ∧ Tracks c verify pieces.flatten (t.dec k) := by
  have hreset : execWith c (.decReset [if verify then 0x01#8 else 0x00#8]) (s.onPort (.dec k))
      = .next ((s.onPort (.dec k)).resetDec k verify) := by cases verify <;> rfl
  obtain ⟨t, ht, htracks⟩ := runOn_decWrites hc k pieces [.decEnd []] (s := (s.onPort (.dec k)).resetDec k verify)
    (data := []) (by simpa using Tracks.fresh c verify)
  exact ⟨t, (runOn_cons _ hreset).trans ht, htracks⟩

/-- The end of a live decoder with nothing left over (42_decoder.md R162). -/
theorem decEnd_closes {k : Nat} {s : State} (hl : LiveDec s k) (hd : (s.dec k).residual = []) :
    ∃ t, exec (.decEnd []) s = .next t ∧ t.dec k = { s.dec k with phase := .closed }
      ∧ Answered (.dec k) (.ok []) s t ∧ OnlyUnit (.dec k) s t ∧ t.work = s.work ∧ t.draws = s.draws := by
  obtain ⟨hp, hr, ho⟩ := hl
  refine ⟨(s.setDec k { s.dec k with phase := .closed }).reply (.dec k) (.ok []), ?_, by simp, rfl,
    (OnlyUnit.setDec _ _ _).reply _ _, rfl, rfl⟩
  simp only [exec, execDecEnd, admitDec_live _ hp hr ho, if_pos, hd]

end Run

/-- Settles O42: the encoder's output is a stream that decodes to the deliveries, and a decoder run is where that stream puts it. -/
theorem roundTrip : Obligations.RoundTrip := by
  intro c ke kd verify chunks pieces s t hlaw hcalls hcap henc hpieces
  obtain ⟨t₀, ht₀, hunit⟩ := runOn_encoderScript ke hcalls
  obtain rfl : t = t₀ := by rw [henc] at ht₀; cases ht₀; rfl
  obtain ⟨ts, hstream, hdecoded⟩ := streamSoFar_output hlaw verify chunks
  obtain ⟨u, hu, hreset, -, htracks⟩ := runOn_decoderScript (verify := verify) hcap kd pieces t
  rw [hpieces, hunit, hstream] at htracks
  obtain ⟨hlive, -, hdrained, hout⟩ := htracks
  obtain ⟨t', ht', hclosed, -⟩ := decEnd_closes (s := u.onPort (.dec kd)) ⟨rfl, hreset, hlive⟩ hdrained
  rw [State.dec_onPort] at hclosed
  exact ⟨t', hu.trans (runOn_cons [] ht'), by rw [hclosed], by rw [hclosed, ← hdecoded]; exact hout⟩

end Sys2Proof.Machine
end

section
/-! The frame instructions, said once by what the frame contributes (42_decoder.md R147-R154), and the loop that runs them (R144-R146). -/

namespace Sys2Proof.Machine

/-! ### One frame -/

/-- An error inside a delivery fails the delivery's decoder, is answered on its port, and ends the delivery (60_exceptions.md R192). -/
theorem State.raiseInDelivery_fails (s : State) (kind : ErrorKind) :
    (s.raiseInDelivery kind).dec s.work.inst = { s.dec s.work.inst with phase := .failed, err := some kind }
    ∧ Answered (.dec s.work.inst) (.err kind) s (s.raiseInDelivery kind)
    ∧ OnlyUnit (.dec s.work.inst) s (s.raiseInDelivery kind)
    ∧ (s.raiseInDelivery kind).work = Work.idle ∧ (s.raiseInDelivery kind).draws = s.draws :=
  ⟨by simp [State.raiseInDelivery], rfl, (OnlyUnit.raise _ _ _).setWork _, rfl, State.raise_draws _ _ _⟩

/-- The transient values past a frame that is a valid identifier or not and records these tuples (R154, 10_state.md R36). -/
def Work.past (w : Work) (i : Instr) (ident : Bool) (tuples : List DataTuple) : Work :=
  { w with cur := w.cur + (encode i).length, batch := w.batch ++ tuples, found := w.found || ident }

section
variable {i : Instr} {s : State}

theorem Work.advance_eq_past (w : Work) {payload : Bytes} (hn : (encode i).length = 4 + payload.length) :
    w.advance payload = w.past i false [] := by
  simp [Work.advance, Work.past, hn, Nat.add_assoc]

/-- A frame that its class rejects raises the class's error (R147, R150, R153). -/
theorem exec_frame_error {kind : ErrorKind} (hc : frameContribution i = .error kind) :
    exec i s = .next (s.raiseInDelivery kind) := by
  cases i with
  | frameStreamId p =>
    by_cases hp : p = magic
    · simp [frameContribution, hp] at hc
    · rw [frameContribution, if_neg hp] at hc
      cases hc
      exact if_neg hp
  | frameCompressed p | frameUncompressed p =>
    by_cases hp : p.length < 4
    · rw [frameContribution, if_pos hp] at hc
      cases hc
      exact congrArg Host.Outcome.next (if_pos hp)
    · simp [frameContribution, hp] at hc
  | frameUnskippable code p => cases hc; rfl
  | frameSkippable _ _ | framePadding _ | encReset _ | encWrite _ | encEnd _ | decReset _ | decWrite _ | decEnd _ | mask _ =>
    cases hc

/-- A frame that its class accepts moves the cursor past itself and leaves its contribution; no register is written (R147-R154). -/
theorem exec_frame_ok (hf : i.isFrame = true) {ident : Bool} {tuples : List DataTuple}
    (hc : frameContribution i = .ok (ident, tuples)) : exec i s = .next (s.setWork (s.work.past i ident tuples)) := by
  cases i with
  | frameStreamId p =>
    by_cases hp : p = magic
    · rw [frameContribution, if_pos hp] at hc
      cases hc
      refine (if_pos hp).trans ?_
      simp [Work.advance, Work.past, encode, Nat.add_assoc]
    · simp [frameContribution, hp] at hc
  | frameCompressed p | frameUncompressed p =>
    by_cases hp : p.length < 4
    · simp [frameContribution, hp] at hc
    · rw [frameContribution, if_neg hp] at hc
      cases hc
      refine congrArg Host.Outcome.next ((if_neg hp).trans ?_)
      simp [Work.advance, Work.past, encode, Nat.add_assoc]
  | frameSkippable code p =>
    cases hc
    rw [← Work.advance_eq_past (i := .frameSkippable code p) _ (encodeFrame_length code p)]
    rfl
  | framePadding p =>
    cases hc
    rw [← Work.advance_eq_past (i := .framePadding p) _ (encodeFrame_length 0xFE#8 p)]
    rfl
  | frameUnskippable _ _ => cases hc
  | encReset _ | encWrite _ | encEnd _ | decReset _ | decWrite _ | decEnd _ | mask _ => cases hf

end

/-- The bytes after the checksum are the block (R73). -/
theorem blockField_eq_drop (payload : Bytes) : blockField payload = payload.drop 4 := by
  rw [blockField, memRead, List.take_of_length_le (by rw [List.length_drop])]

theorem frameCompressed_contribution {p : Bytes} (hroom : ¬ p.length < 4) :
    frameContribution (.frameCompressed p) = .ok (false, [⟨.compressed, checksumField p, blockField p⟩]) := if_neg hroom

theorem frameUncompressed_contribution {p : Bytes} (hroom : ¬ p.length < 4) :
    frameContribution (.frameUncompressed p) = .ok (false, [⟨.uncompressed, checksumField p, blockField p⟩]) := if_neg hroom

theorem encode_frameStreamId_eq_idFrame {p : Bytes} : encode (.frameStreamId p) = idFrame ↔ p = magic :=
  ⟨fun h => congrArg (List.drop 4) h, fun h => h ▸ rfl⟩

/-- Settles O22: the payload alone decides, and the first four bytes of the frame are its header, which `MAGIC`'s length fixes. -/
theorem streamIdentifierFrame : Obligations.StreamIdentifierFrame := by
  refine ⟨fun s => ?_, fun p s hp => ?_, fun p _ => encode_frameStreamId_eq_idFrame⟩
  · rw [exec_frame_ok rfl identifier_contribution]
    simp [State.setWork, Work.past, encode, magic]
  · exact ⟨_, exec_frame_error (if_neg hp), s.raiseInDelivery_fails _⟩

/-- Settles O23: a data frame with room for its checksum contributes one tuple. -/
theorem dataFramesAreRecorded : Obligations.DataFramesAreRecorded := by
  intro p s hp
  have hroom : ¬ p.length < 4 := Nat.not_lt.2 hp
  rw [exec_frame_ok rfl (frameCompressed_contribution hroom), exec_frame_ok rfl (frameUncompressed_contribution hroom)]
  constructor <;>
    simp [State.setWork, Work.past, encode, checksumField, blockField_eq_drop, Nat.add_assoc]

/-- Settles O24: both classes of data frame reject a payload with no room for the checksum. -/
theorem shortDataFramesAreRejected : Obligations.ShortDataFramesAreRejected := by
  rintro i p s hp (rfl | rfl)
  · exact ⟨_, exec_frame_error (if_pos hp), s.raiseInDelivery_fails _⟩
  · exact ⟨_, exec_frame_error (if_pos hp), s.raiseInDelivery_fails _⟩

/-- Settles O25: both classes contribute nothing. -/
theorem paddingAndSkippableAreDiscarded : Obligations.PaddingAndSkippableAreDiscarded := by
  intro code p s
  rw [exec_frame_ok (i := .framePadding p) rfl rfl, exec_frame_ok (i := .frameSkippable code p) rfl rfl]
  constructor <;>
    simp [State.setWork, Work.past, encode, Nat.add_assoc]

/-- Settles O26: the class rejects every frame, and an error writes no output. -/
theorem unskippableFramesAreRejected : Obligations.UnskippableFramesAreRejected := by
  intro code p s
  obtain ⟨hunit, hrest⟩ := s.raiseInDelivery_fails .unskippableFrame
  exact ⟨_, exec_frame_error rfl, hunit, by rw [hunit], hrest⟩

/-- Settles O27: a frame with an error gives a response, and every other one only moves the transient values past itself. -/
theorem frameAdvancesPastItself : Obligations.FrameAdvancesPastItself := by
  intro i s t hf h hr
  cases hc : frameContribution i with
  | error kind =>
    obtain ⟨-, hreply, -⟩ := s.raiseInDelivery_fails kind
    rw [exec_frame_error hc] at h
    cases h
    simp [hreply] at hr
  | ok v =>
    rw [exec_frame_ok hf hc] at h
    cases h
    exact ⟨rfl, rfl⟩

/-! ### The frame loop -/

/-- Running the frame at `cur` is executing the instruction of its type byte and payload (R145, R146). -/
theorem runFrame_eq_exec (s : State) :
    runFrame s = exec (frameInstr (byteAt s.work.data s.work.cur)
      (memRead s.work.data (s.work.cur + 4) (payloadLength s.work.data s.work.cur))) s := by
  unfold runFrame frameInstr
  cases classify (byteAt s.work.data s.work.cur) <;> rfl

theorem runFrames_continues {n : Nat} {s t : State} (ha : s.work.active = true)
    (hc : complete s.work.data s.work.cur = true) (hr : runFrame s = .next t) : runFrames (n + 1) s = runFrames n t := by
  rw [runFrames, ha, hc, hr]
  rfl

theorem runFrames_stops {s : State} (hc : complete s.work.data s.work.cur = false) (n : Nat) : runFrames n s = .next s := by
  cases n with
  | zero => rfl
  | succ n => rw [runFrames, hc, Bool.and_false]; rfl

/-- Settles O28: the frame decoder reads the type and the payload that the loop extracts. -/
theorem frameLoopRunsDecodedFrame : Obligations.FrameLoopRunsDecodedFrame := by
  intro s i rest n hd
  obtain ⟨hi, -, -⟩ := decodeFrame_at hd
  have hrun : runFrame s = exec i s := (runFrame_eq_exec s).trans (by rw [← hi])
  exact ⟨hi, hrun, fun ha t ht =>
    runFrames_continues ha ((complete_iff_decodeFrame _ _).2 ⟨_, hd⟩) (hrun.trans ht)⟩

/-- Settles O29: the condition is `complete`, and the loop's two ways to go are its two values. -/
theorem frameLoopStopsAtIncompleteFrame : Obligations.FrameLoopStopsAtIncompleteFrame :=
  ⟨fun _ _ => decide_eq_true_iff, fun _ _ _ => runFrames_continues, fun n _ hc => runFrames_stops hc n⟩

end Sys2Proof.Machine
end

section
/-! A delivery of whole frames: what it commits, refuses or reports, and the identifier check before it (42_decoder.md R141, R143, R154-R160,
60_exceptions.md R195). -/

namespace Sys2Proof.Machine

/-! ### Tuples -/

section Tuples
variable {c : Collaborators} {verify : Bool} {x : DataTuple}

/-- A tuple with a decoded block is checked against its stored mask, when `verify` asks for it (R157). -/
theorem decodeTuple_of_decodeBlock {d : Bytes} (h : decodeBlock c x = some d) :
    decodeTuple c verify x
      = if verify = true ∧ maskOf c d ≠ x.checksumMask then .error .checksumMismatch else .ok d := by
  simp [decodeTuple, h]

theorem decodeTuple_of_decodeBlock_none (h : decodeBlock c x = none) :
    decodeTuple c verify x = .error .decompressionFailure := by
  rw [decodeTuple, h]

/-- Every tuple of a batch decodes, or one of them fails. -/
theorem batch_decodes_or_fails (c : Collaborators) (verify : Bool) (ts : List DataTuple) :
    (∀ x ∈ ts, ∃ d, decodeTuple c verify x = .ok d) ∨ ∃ x ∈ ts, ∃ e, decodeTuple c verify x = .error e := by
  by_contra! h
  obtain ⟨⟨x, hx, hne⟩, hok⟩ := h
  cases hd : decodeTuple c verify x with
  | ok d => exact hne d hd
  | error e => exact hok x hx e hd

theorem decodeTuple_error_ne_missingStreamIdentifier {kind : ErrorKind} (h : decodeTuple c verify x = .error kind) :
    kind ≠ .missingStreamIdentifier := by
  cases hb : decodeBlock c x with
  | none =>
    rw [decodeTuple_of_decodeBlock_none hb] at h
    cases h
    exact nofun
  | some d =>
    rw [decodeTuple_of_decodeBlock hb] at h
    split at h <;> cases h
    exact nofun

end Tuples

/-- Settles O37: a raw block is decoded as it is, a compressed one by the decompressor, and then the mask is checked. -/
theorem tupleDecoding : Obligations.TupleDecoding :=
  fun _ _ _ _ => ⟨decodeTuple_of_decodeBlock rfl, fun h => decodeTuple_of_decodeBlock_none h,
    fun _ h => decodeTuple_of_decodeBlock h⟩

/-! ### What the parse of a delivery comes to -/

section Settle
variable {c : Collaborators} {draw : Nat} {u : DecUnit} {f : Bool} {ts : List DataTuple} {r : Bytes}

/-- Tuples that all decode and a residual that fits are committed (R158, R159). -/
theorem settle_commits (hd : ∀ x ∈ ts, ∃ d, decodeTuple c u.verify x = .ok d) (hr : exceedsCap c r = false) :
    settle c draw u (.ok (f, ts, r)) =
      ({ u with residual := r, found := u.found || f, out := u.out ++ decodedBytes c u.verify ts,
                phase := nextPhase (u.found || f) r }, .ok (decodedBytes c u.verify ts), 0) := by
  simp only [settle, failingTuples_eq_nil.2 hd, hr]
  rfl

/-- Tuples that all decode, with a residual over the capacity, are refused (R160). -/
theorem settle_refuses (hd : ∀ x ∈ ts, ∃ d, decodeTuple c u.verify x = .ok d) (hr : exceedsCap c r = true) :
    settle c draw u (.ok (f, ts, r)) = ({ u with capacityFault := true }, .refused, 0) := by
  simp only [settle, failingTuples_eq_nil.2 hd, hr]
  rfl

/-- A batch with a failing tuple reports the error of one of its failing tuples, whichever `pickError` selects (R158). -/
theorem settle_fails (hd : ∃ x ∈ ts, ∃ e, decodeTuple c u.verify x = .error e) :
    ∃ x ∈ ts, ∃ kind, decodeTuple c u.verify x = .error kind
      ∧ settle c draw u (.ok (f, ts, r)) = (u.failWith kind, .err kind, 1) := by
  cases hfail : failingTuples c u.verify 0 ts with
  | nil =>
    obtain ⟨x, hx, e, he⟩ := hd
    obtain ⟨d, hok⟩ := failingTuples_eq_nil.1 hfail x hx
    cases he.symm.trans hok
  | cons first others =>
    obtain ⟨y, hy, hpicked⟩ := pickedError_mem c draw first others
    rw [← hfail] at hy
    obtain ⟨hmem, herror⟩ := mem_failingTuples hy
    refine ⟨y.tuple, hmem, y.error, herror, ?_⟩
    simp only [settle, hfail, hpicked]

/-- An error answered is the parse's or a tuple's. -/
theorem settle_err {parsed : Except ErrorKind (Bool × List DataTuple × Bytes)} {kind : ErrorKind}
    (h : (settle c draw u parsed).2.1 = .err kind) :
    parsed = .error kind ∨ ∃ x, decodeTuple c u.verify x = .error kind := by
  cases parsed with
  | error e => cases h; exact .inl rfl
  | ok v =>
    obtain ⟨f, ts, r⟩ := v
    right
    rcases batch_decodes_or_fails c u.verify ts with hd | hd
    · cases hr : exceedsCap c r with
      | false => rw [settle_commits hd hr] at h; cases h
      | true => rw [settle_refuses hd hr] at h; cases h
    · obtain ⟨x, -, e, he, hs⟩ := settle_fails (draw := draw) (f := f) (r := r) hd
      rw [hs] at h
      cases h
      exact ⟨x, he⟩

end Settle

/-! ### A delivery of good frames and an incomplete tail -/

section Frames
variable {c : Collaborators} {k : Nat} {chunk tail : Bytes} {frames : List Instr} {s : State}

theorem parseFrames_good_incomplete (hg : GoodFrames frames) (ht : complete tail 0 = false) :
    parseFrames ((frames.map encode).flatten ++ tail).length ((frames.map encode).flatten ++ tail)
      = .ok (seesIdentifier frames, batchOf frames, tail) := by
  rw [parseFrames_good hg (le_refl _), parseFrames_incomplete ht]
  simp only [Bool.or_false, List.append_nil]

/-- `DEC_WRITE` of good frames and an incomplete tail to a live decoder does what its batch settles to (R141). -/
theorem decWrite_frames (hl : LiveDec s k) (hdata : (s.dec k).residual ++ chunk = (frames.map encode).flatten ++ tail)
    (hg : GoodFrames frames) (ht : complete tail 0 = false)
    (hid : IdentifierInPlace (s.dec k).found ((s.dec k).residual ++ chunk)) {u : DecUnit} {r : Response} {n : Nat}
    (h : settle c s.draws (s.dec k) (.ok (seesIdentifier frames, batchOf frames, tail)) = (u, r, n)) :
    ∃ t, decWrite c chunk s = .next t ∧ t.dec k = u ∧ Answered (.dec k) r s t ∧ OnlyUnit (.dec k) s t
      ∧ t.work = Work.idle ∧ t.draws = s.draws + n := by
  refine decWrite_receive c chunk hl ?_
  rw [receive_settle (missingIdentifier_inPlace hid), hdata, parseFrames_good_incomplete hg ht, h]

end Frames

/-- Settles O33: the batch decodes and the tail fits, so the delivery is committed. -/
theorem deliveryCommits : Obligations.DeliveryCommits := by
  intro c k chunk tail frames s hl hdata hg ht hid hdecodes hfits
  exact decWrite_frames hl hdata hg ht hid (settle_commits hdecodes hfits)

/-- Settles O35: the error picked is a failing tuple's, and the delivery reports it. -/
theorem batchErrorDecides : Obligations.BatchErrorDecides := by
  intro c k chunk tail frames s hl hdata hg ht hid hfail
  obtain ⟨x, hx, kind, herror, hs⟩ := settle_fails (draw := s.draws) (f := seesIdentifier frames) (r := tail) hfail
  obtain ⟨t, hstep, hunit, hreply, hframe, hwork, -⟩ := decWrite_frames hl hdata hg ht hid hs
  exact ⟨t, kind, hstep, hunit, ⟨x, hx, herror⟩, hreply, hframe, hwork⟩

/-- Settles O36: the batch decodes and the tail is over the capacity, so the delivery is refused. -/
theorem capacityRefusal : Obligations.CapacityRefusal := by
  intro c cap k chunk tail frames s hcap hl hdata hg ht hid hdecodes hlong
  have hover : exceedsCap c tail = true := by rw [exceedsCap, hcap]; exact decide_eq_true hlong
  exact decWrite_frames hl hdata hg ht hid (settle_refuses hdecodes hover)

/-! ### Uncompressed frames without verification -/

section Verbatim
variable {c : Collaborators}

/-- The frame of a checksum and a block sent as it is (30_encoding.md R73, R74). -/
def rawInstr (b : Word × Bytes) : Instr := .frameUncompressed (pack32 b.1 ++ b.2)

/-- The tuple such a frame records (R149). -/
def rawTuple (b : Word × Bytes) : DataTuple := ⟨.uncompressed, b.1, b.2⟩

theorem rawInstr_contribution (b : Word × Bytes) : frameContribution (rawInstr b) = .ok (false, [rawTuple b]) := by
  have hroom : ¬ (pack32 b.1 ++ b.2).length < 4 := by simp
  have hblock : blockField (pack32 b.1 ++ b.2) = b.2 := blockField_eq_drop _
  rw [rawInstr, frameUncompressed_contribution hroom, checksumField, le32_pack32, hblock]
  rfl

theorem rawInstrs_good {blocks : List (Word × Bytes)} (h : ∀ b ∈ blocks, b.2.length + 4 < 2 ^ 24) :
    GoodFrames (blocks.map rawInstr) := by
  intro i hi
  obtain ⟨b, hb, rfl⟩ := List.mem_map.1 hi
  have hlen : (pack32 b.1 ++ b.2).length < 2 ^ 24 := by
    rw [List.length_append, pack32_length, Nat.add_comm]; exact h b hb
  exact ⟨rfl, decide_eq_true hlen, _, rawInstr_contribution b⟩

theorem batchOf_rawInstrs (blocks : List (Word × Bytes)) : batchOf (blocks.map rawInstr) = blocks.map rawTuple := by
  induction blocks with
  | nil => rfl
  | cons b blocks ih => rw [List.map_cons, batchOf_cons _ (rawInstr_contribution b), ih]; rfl

theorem decodeTuple_rawTuple (b : Word × Bytes) : decodeTuple c false (rawTuple b) = .ok b.2 := rfl

theorem decodedBytes_rawTuples (blocks : List (Word × Bytes)) :
    decodedBytes c false (blocks.map rawTuple) = (blocks.map fun b => b.2).flatten := by
  induction blocks with
  | nil => rfl
  | cons b blocks ih => rw [List.map_cons, decodedBytes, decodeTuple_rawTuple, ih]; rfl

end Verbatim

/-- Settles O32: the frames are good, every tuple decodes to its block, and the commit writes what the registers held, but for the output. -/
theorem verbatimDelivery : Obligations.VerbatimDelivery := by
  intro k blocks s hl hfound hverify hresidual hphase hlen
  have hdata : (s.dec k).residual ++ (blocks.map fun b => encode (.frameUncompressed (pack32 b.1 ++ b.2))).flatten
      = ((blocks.map rawInstr).map encode).flatten ++ [] := by
    rw [hresidual, List.map_map, List.append_nil]
    rfl
  have hdecodes : ∀ x ∈ batchOf (blocks.map rawInstr), ∃ d, decodeTuple Config.platform (s.dec k).verify x = .ok d := by
    intro x hx
    rw [batchOf_rawInstrs] at hx
    obtain ⟨b, -, rfl⟩ := List.mem_map.1 hx
    exact ⟨b.2, by rw [hverify, decodeTuple_rawTuple]⟩
  have hout : decodedBytes Config.platform (s.dec k).verify (batchOf (blocks.map rawInstr))
      = (blocks.map fun b => b.2).flatten := by
    rw [hverify, batchOf_rawInstrs, decodedBytes_rawTuples]
  obtain ⟨t, hstep, hunit, hrest⟩ := deliveryCommits Config.platform k _ [] _ s hl hdata (rawInstrs_good hlen) rfl
    (.inl hfound) hdecodes (exceedsCap_empty _)
  rw [hout] at hunit hrest
  refine ⟨t, hstep, hunit.trans ?_, hrest⟩
  simp [hfound, hresidual, hphase]

/-! ### The identifier check -/

theorem missingIdentifier_iff {found : Bool} {data : Bytes} :
    missingIdentifier found data = true ↔ found = false ∧ data ≠ [] ∧ byteAt data 0 ≠ 0xFF#8 := by
  simp [missingIdentifier]

theorem frameContribution_error_ne_missingStreamIdentifier {i : Instr} {kind : ErrorKind}
    (h : frameContribution i = .error kind) : kind ≠ .missingStreamIdentifier := by
  cases i with
  | frameStreamId p | frameCompressed p | frameUncompressed p =>
    rw [frameContribution] at h
    split at h <;> cases h
    exact nofun
  | frameUnskippable code p => cases h; exact nofun
  | frameSkippable _ _ | framePadding _ | encReset _ | encWrite _ | encEnd _ | decReset _ | decWrite _ | decEnd _ | mask _ =>
    cases h

/-- An error of the parse is the error of one of the frames. -/
theorem parseFrames_error_of_frame {n : Nat} {data : Bytes} {kind : ErrorKind} (h : parseFrames n data = .error kind) :
    ∃ i, frameContribution i = .error kind := by
  induction n generalizing data with
  | zero => cases h
  | succ n ih =>
    rw [parseFrames] at h
    split at h
    · cases h
    next i rest _ =>
      split at h
      next hi => cases h; exact ⟨i, hi⟩
      next =>
        split at h
        next hrest => cases h; exact ih hrest
        · cases h

/-- A delivery that passes the identifier check answers another response than its error (R143). -/
theorem receive_ne_missingStreamIdentifier {c : Collaborators} {draw : Nat} {chunk : Bytes} {u : DecUnit}
    (h : missingIdentifier u.found (u.residual ++ chunk) = false) :
    (receive c draw chunk u).2.1 ≠ .err .missingStreamIdentifier := by
  intro herr
  rw [receive_settle h] at herr
  rcases settle_err herr with hparse | ⟨x, hx⟩
  · obtain ⟨i, hi⟩ := parseFrames_error_of_frame hparse
    exact frameContribution_error_ne_missingStreamIdentifier hi rfl
  · exact decodeTuple_error_ne_missingStreamIdentifier hx rfl

/-- Settles O31: the check is made before any frame, and no frame or tuple raises its error. -/
theorem missingIdentifierFails : Obligations.MissingIdentifierFails := by
  intro k chunk s hl
  refine ⟨fun hfound hdata hbyte => ?_, fun hid => ?_⟩
  · exact decWrite_receive Config.platform chunk hl (if_pos (missingIdentifier_iff.2 ⟨hfound, hdata, hbyte⟩))
  · obtain ⟨t, hstep, -, hreply, -⟩ := decWrite_receive Config.platform chunk hl rfl
    exact ⟨t, _, hstep, hreply, receive_ne_missingStreamIdentifier (missingIdentifier_inPlace hid)⟩

end Sys2Proof.Machine
end

section
/-! `DEC_WRITE` and `DEC_END` in each phase, and whole decoder runs however the stream is cut (42_decoder.md R161, R162, R164). -/

namespace Sys2Proof.Machine

section Admission
variable {s : State} {k : Nat}

theorem admitDec_failed (body : Nat → Host.Outcome State Fault Refusal) (hp : s.port = .dec k)
    (hr : (s.dec k).everReset = true) (hf : (s.dec k).phase = .failed) :
    admitDec s body = .next (s.drop (.dec k)) := by
  simp [admitDec, hp, hr, hf]

theorem admitDec_closed (body : Nat → Host.Outcome State Fault Refusal) (hp : s.port = .dec k)
    (hr : (s.dec k).everReset = true) (hc : (s.dec k).phase = .closed) :
    admitDec s body = .next (s.refuse (.dec k)) := by
  simp [admitDec, hp, hr, hc]

/-- A refusal at a decoder's port sets its `protocol_fault`, is answered, and writes nothing else (10_state.md R41). -/
theorem State.refuse_dec_sets_protocolFault (s : State) (k : Nat) :
    (s.refuse (.dec k)).dec k = { s.dec k with protocolFault := true }
    ∧ Answered (.dec k) .refused s (s.refuse (.dec k)) ∧ OnlyUnit (.dec k) s (s.refuse (.dec k))
    ∧ (s.refuse (.dec k)).work = s.work ∧ (s.refuse (.dec k)).draws = s.draws :=
  ⟨by simp, State.refuse_responses s _, OnlyUnit.refuse _ s, State.refuse_work s _, State.refuse_draws s _⟩

/-- The end of a live decoder that holds the start of a frame (R162). -/
theorem decEnd_truncates (hl : LiveDec s k) (hd : (s.dec k).residual ≠ []) :
    ∃ t, exec (.decEnd []) s = .next t ∧ t.dec k = { s.dec k with phase := .failed, err := some .truncatedStream }
      ∧ Answered (.dec k) (.err .truncatedStream) s t ∧ OnlyUnit (.dec k) s t ∧ t.work = s.work ∧ t.draws = s.draws := by
  obtain ⟨hp, hr, ho⟩ := hl
  exact ⟨_, (admitDec_live _ hp hr ho).trans (if_neg hd), by simp, rfl, OnlyUnit.raise _ _ _, rfl, rfl⟩

end Admission

/-- Settles O38: admission drops the delivery in `Failed` and refuses it in `Closed`. -/
theorem decWriteOutsideLivePhases : Obligations.DecWriteOutsideLivePhases :=
  fun k _ s hp hr =>
    ⟨fun hf => admitDec_failed _ hp hr hf,
      fun hc => ⟨_, admitDec_closed _ hp hr hc, State.refuse_dec_sets_protocolFault s k⟩⟩

/-- Settles O39: the residual decides in the live phases, admission in the others. -/
theorem decEndClosesOrTruncates : Obligations.DecEndClosesOrTruncates :=
  ⟨fun _ _ => decEnd_closes, fun _ _ => decEnd_truncates, fun _ _ hp hr hf => admitDec_failed _ hp hr hf,
    fun k s hp hr hc => ⟨_, admitDec_closed _ hp hr hc, State.refuse_dec_sets_protocolFault s k⟩⟩

section Run
variable {c : Collaborators} {verify : Bool}

/-- What a whole stream decodes to, when it does: every delivery of it succeeds and nothing is left over (R162, R164). -/
def wholeStream (c : Collaborators) (verify : Bool) (data : Bytes) : Option Bytes :=
  match streamSoFar c verify data with
  | some (_, ts, []) => some (decodedBytes c verify ts)
  | some (_, _, _ :: _) | none => none

/-- A decoder after the end of a stream: `Closed` with what the stream decodes to, or `Failed`. -/
def Ended (c : Collaborators) (verify : Bool) (data : Bytes) (u : DecUnit) : Prop :=
  match wholeStream c verify data with
  | some b => u.phase = .closed ∧ u.out = b
  | none => u.phase = .failed

/-- The end of a decoder that has been given `data` (R162, 60_exceptions.md R194). -/
theorem Tracks.decEnd {data : Bytes} {k : Nat} {s : State} (hp : s.port = .dec k) (ht : Tracks c verify data (s.dec k)) :
    ∃ t, exec (.decEnd []) s = .next t ∧ Ended c verify data (t.dec k) := by
  obtain ⟨hreset, -, hregs⟩ := ht
  unfold Ended wholeStream
  cases hstream : streamSoFar c verify data with
  | none =>
    rw [hstream] at hregs
    exact ⟨_, admitDec_failed _ hp hreset hregs, hregs⟩
  | some v =>
    obtain ⟨f, ts, r⟩ := v
    rw [hstream] at hregs
    obtain ⟨hlive, -, hresidual, hout⟩ := hregs
    cases r with
    | nil =>
      obtain ⟨t, hstep, hunit, -⟩ := decEnd_closes ⟨hp, hreset, hlive⟩ hresidual
      exact ⟨t, hstep, by rw [hunit], by rw [hunit]; exact hout⟩
    | cons a l =>
      obtain ⟨t, hstep, hunit, -⟩ := decEnd_truncates ⟨hp, hreset, hlive⟩ (hresidual ▸ List.cons_ne_nil a l)
      exact ⟨t, hstep, by rw [hunit]⟩

/-- A whole decoder run ends as its bytes decide, wherever they are cut and from whatever state it starts (R164). -/
theorem runOn_decoderScript_ended (hc : c.residualCap = none) (verify : Bool) (k : Nat) (pieces : List Bytes) (s : State) :
    ∃ t, runOn c (.dec k) (decoderScript verify pieces) s = .next t ∧ Ended c verify pieces.flatten (t.dec k) := by
  obtain ⟨u, hu, htracks⟩ := runOn_decoderScript (verify := verify) hc k pieces s
  obtain ⟨t, ht, hended⟩ := htracks.decEnd (s := u.onPort (.dec k)) rfl
  exact ⟨t, hu.trans (runOn_cons [] ht), hended⟩

end Run

/-- Settles O41: both runs end as the same bytes decide. -/
theorem chunkingIndependence : Obligations.ChunkingIndependence := by
  intro c k verify pieces₁ pieces₂ s₁ s₂ hc hpieces
  obtain ⟨t₁, ht₁, hended₁⟩ := runOn_decoderScript_ended hc verify k pieces₁ s₁
  obtain ⟨t₂, ht₂, hended₂⟩ := runOn_decoderScript_ended hc verify k pieces₂ s₂
  refine ⟨t₁, t₂, ht₁, ht₂, ?_⟩
  unfold Ended at hended₁ hended₂
  rw [hpieces] at hended₁
  cases hstream : wholeStream c verify pieces₂.flatten with
  | none =>
    rw [hstream] at hended₁ hended₂
    exact .inr ⟨hended₁, hended₂⟩
  | some b =>
    rw [hstream] at hended₁ hended₂
    obtain ⟨hclosed₁, hout₁⟩ := hended₁
    obtain ⟨hclosed₂, hout₂⟩ := hended₂
    exact .inl ⟨hclosed₁, hclosed₂, hout₁.trans hout₂.symm⟩

end Sys2Proof.Machine
end

section
/-! Errors and their order: the parse error that decides a delivery, what `Err(K)` writes, that `Failed` is terminal, and that every step
completes (60_exceptions.md R192, R194-R196, 10_state.md R41). -/

namespace Sys2Proof.Machine

/-! ### The first parse error -/

section Parse
variable {frames : List Instr} {bad : Instr} {kind : ErrorKind}

/-- Frames that raise nothing do not hide the error of the frame after them, whatever follows it (R195). -/
theorem parseFrames_good_bad (hg : GoodFrames frames) (hf : bad.isFrame = true) (he : bad.encodable = true)
    (hc : frameContribution bad = .error kind) (rest : Bytes) :
    parseFrames ((frames.map encode).flatten ++ encode bad ++ rest).length ((frames.map encode).flatten ++ encode bad ++ rest)
      = .error kind := by
  have hpos : 0 < ((frames.map encode).flatten ++ (encode bad ++ rest)).length := by
    obtain ⟨code, payload, hencode, -, -⟩ := encode_frame hf he
    rw [hencode]
    simp
  rw [List.append_assoc, parseFrames_good hg (le_refl _), parseFrames_bad hf he hc hpos]

end Parse

/-- Settles O34: the identifier check passes, the parse ends at the bad frame, and an error of the parse decodes no tuple. -/
theorem parseErrorDecides : Obligations.ParseErrorDecides := by
  intro c k chunk rest frames bad kind s hl hdata hg hf he hc hid
  refine decWrite_receive c chunk hl (u := (s.dec k).failWith kind) (r := .err kind) (n := 0) ?_
  rw [receive_settle (missingIdentifier_inPlace hid), hdata, parseFrames_good_bad hg hf he hc]
  rfl

/-! ### Completion -/

/-- A frame answers a next state, whether its class accepts it or not (42_decoder.md R147-R154). -/
theorem exec_frame_completes {i : Instr} (hf : i.isFrame = true) (s : State) : ∃ t, exec i s = .next t := by
  cases hc : frameContribution i with
  | error kind => exact ⟨_, exec_frame_error hc⟩
  | ok v => exact ⟨_, exec_frame_ok hf hc⟩

theorem exec_completes (i : Instr) (s : State) : ∃ t, exec i s = .next t := by
  cases hf : i.isFrame with
  | true => exact exec_frame_completes hf s
  | false =>
    obtain ⟨t, ht, -⟩ := execWith_command Config.platform s hf
    exact ⟨t, (execUsesPlatform i s).trans ht⟩

/-- Settles O45: a step waits, executes its command, or refuses its packet. -/
theorem everyStepCompletes : Obligations.EveryStepCompletes := by
  refine ⟨exec_completes, fun s => ?_⟩
  cases hq : s.pending with
  | nil => exact ⟨s, step_waits hq⟩
  | cons head rest =>
    obtain ⟨p, packet⟩ := head
    cases hd : decodePacket packet with
    | ok i =>
      rw [step_runs hq hd]
      exact exec_completes i _
    | error e => exact ⟨_, step_refuses hq hd⟩

/-! ### Errors and `Failed` -/

section Failed
variable {c : Collaborators} {i : Instr} {s t : State} {k : Nat}

/-- Only a live unit answers `Err(K)`, and it is left with its phase and error kind written and nothing else (R192). -/
theorem CommandEffect.fails_of_err {kind : ErrorKind} (h : CommandEffect c s i t) (herr : Answered s.port (.err kind) s t) :
    (∃ k, LiveEnc s k ∧ t.enc k = { s.enc k with phase := .failed, err := some kind })
    ∨ ∃ k, LiveDec s k ∧ t.dec k = { s.dec k with phase := .failed, err := some kind } := by
  cases h with
  | refused => cases herr.unique (State.refuse_responses _ _)
  | droppedEnc | droppedDec => cases herr.unique rfl
  | encReset k hp | decReset k _ _ hp | mask _ hp => rw [hp] at herr; cases herr.unique rfl
  | encWriteEmits k chunk hl | encEnd k hl | decEnd k hl => rw [hl.1] at herr; cases herr.unique rfl
  | encWriteFails k chunk hl =>
    rw [hl.1] at herr
    cases herr.unique rfl
    exact .inl ⟨k, hl, by simp⟩
  | decEndTruncated k hl =>
    rw [hl.1] at herr
    cases herr.unique rfl
    exact .inr ⟨k, hl, by simp⟩
  | decWrite k chunk hl =>
    rw [hl.1] at herr
    have hreply : (receive c s.draws chunk (s.dec k)).2.1 = .err kind := (herr.unique rfl).symm
    exact .inr ⟨k, hl, (State.dec_setDec_self _ _ _).trans (receive_of_err hreply)⟩

/-- A `Failed` encoder is left alone by every command but its legal reset, except that a refusal sets `protocol_fault` (R194, R196). -/
theorem EncChange.of_failed {u : EncUnit} (h : EncChange c s k i u) (hf : (s.enc k).phase = .failed) (hi : i ≠ .encReset []) :
    u = s.enc k ∨ u = { s.enc k with protocolFault := true } := by
  cases h with
  | unchanged => exact .inl rfl
  | refused => exact .inr rfl
  | reset => exact absurd rfl hi
  | failed _ hl | emitted _ hl | closed hl => cases hf.symm.trans hl.2.2

/-- A `DEC_RESET` with another operand than the two legal ones is refused, at every port (30_encoding.md R86). -/
theorem CommandEffect.decReset_refused {operand : Bytes} (h : CommandEffect c s (.decReset operand) t)
    (h₀ : operand ≠ [0x00#8]) (h₁ : operand ≠ [0x01#8]) : t = s.refuse s.port := by
  cases h with
  | refused => rfl
  | droppedEnc _ _ _ _ _ hi | droppedDec _ _ _ _ _ hi => rcases hi with hi | ⟨_, hi⟩ <;> cases hi
  | decReset k verify _ hp ho => exact absurd (verifyOperand_some ho) (not_or.2 ⟨h₀, h₁⟩)

theorem DecUnit.live_ne_failed {u : DecUnit} (hl : u.phase.isTerminal = false) : u.phase ≠ .failed := by
  intro hf
  rw [hf] at hl
  cases hl

/-- A `Failed` decoder is left alone by every command but its legal reset, except that a refusal sets `protocol_fault` (R194, R196). -/
theorem CommandEffect.dec_of_failed (h : CommandEffect c s i t) (hf : (s.dec k).phase = .failed)
    (h₀ : i ≠ .decReset [0x00#8]) (h₁ : i ≠ .decReset [0x01#8]) :
    t.dec k = s.dec k ∨ t.dec k = { s.dec k with protocolFault := true } := by
  have hc := h.decChange k
  generalize hu : t.dec k = u at hc ⊢
  cases hc with
  | unchanged => exact .inl rfl
  | refused => exact .inr rfl
  | reset operand =>
    rw [← hu, h.decReset_refused (fun ho => h₀ (congrArg _ ho)) fun ho => h₁ (congrArg _ ho), State.dec_refuse]
    split
    · exact .inr rfl
    · exact .inl rfl
  | received _ hl | closed hl | truncated hl => exact absurd hf (DecUnit.live_ne_failed hl.2.2)

end Failed

/-- Settles O51: an error is answered by a live encoder or decoder, which keeps all but its phase and error kind. -/
theorem errorsArePrecise : Obligations.ErrorsArePrecise := by
  intro i s t kind hi h herr
  rcases (exec_cases hi h).fails_of_err herr with ⟨k, ⟨hp, -⟩, hunit⟩ | ⟨k, ⟨hp, -⟩, hunit⟩
  · exact .inl ⟨k, hp, hunit⟩
  · exact .inr ⟨k, hp, hunit⟩

/-- Settles O52: a `Failed` unit keeps its registers but for `protocol_fault`, and only a live unit answers an error. -/
theorem failedIsTerminal : Obligations.FailedIsTerminal := by
  intro i s t hi h
  have heffect := exec_cases hi h
  refine ⟨fun k hf hn => ?_, fun k hf h₀ h₁ => ?_, fun k kind hp hf herr => ?_, fun k kind hp hf herr => ?_⟩
  · rcases (heffect.encChange k).of_failed hf hn with hunit | hunit <;> rw [hunit] <;> exact ⟨hf, rfl, rfl⟩
  · rcases heffect.dec_of_failed hf h₀ h₁ with hunit | hunit <;> rw [hunit] <;> exact ⟨hf, rfl, rfl⟩
  · rcases heffect.fails_of_err herr with ⟨j, ⟨hport, -, hopen⟩, -⟩ | ⟨j, ⟨hport, -⟩, -⟩
    · cases hp.symm.trans hport
      cases hf.symm.trans hopen
    · cases hp.symm.trans hport
  · rcases heffect.fails_of_err herr with ⟨j, ⟨hport, -⟩, -⟩ | ⟨j, ⟨hport, -, hlive⟩, -⟩
    · cases hp.symm.trans hport
    · cases hp.symm.trans hport
      exact DecUnit.live_ne_failed hlive hf

end Sys2Proof.Machine
end

section
/-! The resets of encoders and decoders, and the units that have had none (70_reset_and_hazards.md R220-R222). -/

namespace Sys2Proof.Machine

section Reset
variable {s : State} {k : Nat}

/-- At an encoder's port neither phase nor history is asked for (R220). -/
theorem exec_encReset_atPort (hp : s.port = .enc k) : exec (.encReset []) s = .next (s.resetEnc k) := by
  simp only [exec, execEncReset, hp, if_pos]

/-- Each of the two legal operands names the value it sets (30_encoding.md R84). -/
theorem verifyOperand_of_verify (verify : Bool) : verifyOperand [if verify then 0x01#8 else 0x00#8] = some verify := by
  cases verify <;> rfl

/-- At a decoder's port neither phase nor history is asked for (R221). -/
theorem exec_decReset_atPort {operand : Bytes} {verify : Bool} (hp : s.port = .dec k)
    (ho : verifyOperand operand = some verify) : exec (.decReset operand) s = .next (s.resetDec k verify) := by
  simp only [exec, execDecReset, hp, ho]

end Reset

/-- Settles O11: the reset writes the fresh encoder over whatever stood there and answers the identifier frame. -/
theorem encResetStartsStream : Obligations.EncResetStartsStream :=
  fun k s hp => ⟨_, exec_encReset_atPort hp, State.enc_setEnc_self s k EncUnit.fresh, rfl,
    (OnlyUnit.setEnc s k EncUnit.fresh).reply _ _, rfl, rfl⟩

/-- Settles O30: the reset writes the fresh decoder with the operand's `verify` over whatever stood there. -/
theorem decResetStartsStream : Obligations.DecResetStartsStream :=
  fun k verify s hp => ⟨_, exec_decReset_atPort hp (verifyOperand_of_verify verify),
    State.dec_setDec_self s k (DecUnit.fresh verify), rfl, (OnlyUnit.setDec s k (DecUnit.fresh verify)).reply _ _, rfl, rfl⟩

section NeverReset
variable {s : State} {k : Nat}

theorem admitEnc_neverReset (body : Nat → Host.Outcome State Fault Refusal) (hp : s.port = .enc k)
    (hr : (s.enc k).everReset = false) : admitEnc s body = .next (s.refuse (.enc k)) := by
  simp [admitEnc, hp, hr]

theorem admitDec_neverReset (body : Nat → Host.Outcome State Fault Refusal) (hp : s.port = .dec k)
    (hr : (s.dec k).everReset = false) : admitDec s body = .next (s.refuse (.dec k)) := by
  simp [admitDec, hp, hr]

/-- Writes and ends go through the encoder's admission. -/
theorem exec_enc_neverReset {i : Instr} (hp : s.port = .enc k) (hr : (s.enc k).everReset = false)
    (hi : i = .encEnd [] ∨ ∃ chunk, i = .encWrite chunk) : exec i s = .next (s.refuse (.enc k)) := by
  rcases hi with rfl | ⟨chunk, rfl⟩
  · exact admitEnc_neverReset _ hp hr
  · exact admitEnc_neverReset _ hp hr

/-- Writes and ends go through the decoder's admission. -/
theorem exec_dec_neverReset {i : Instr} (hp : s.port = .dec k) (hr : (s.dec k).everReset = false)
    (hi : i = .decEnd [] ∨ ∃ chunk, i = .decWrite chunk) : exec i s = .next (s.refuse (.dec k)) := by
  rcases hi with rfl | ⟨chunk, rfl⟩
  · exact admitDec_neverReset _ hp hr
  · exact admitDec_neverReset _ hp hr

end NeverReset

/-- Settles O50: admission refuses both commands of each unit, and a refusal sets `protocol_fault` and no other register. -/
theorem neverResetUnitsRefuse : Obligations.NeverResetUnitsRefuse :=
  ⟨fun k s _ hp hr hi => ⟨_, exec_enc_neverReset hp hr hi, State.refuse_enc_sets_protocolFault s k⟩,
    fun k s _ hp hr hi => ⟨_, exec_dec_neverReset hp hr hi, State.refuse_dec_sets_protocolFault s k⟩⟩

end Sys2Proof.Machine
end
